-- ==== Sys2Proof/Word.lean ====
section
/-! DEFINITION. The word types of the engine and what travels between the host and the engine: the command word and
the transaction `(W, SZ, off, data)` of `20_memory.md` rule R23. Types only; every computation on them stands in
`Decode.lean` or under `Machine/`. -/

namespace Sys2Proof

/-- A 32-bit datapath word (R5, R40). -/
abbrev Word := BitVec 32

/-- One byte of the block buffer (R10). -/
abbrev Byte := BitVec 8

/-- The 64-bit byte counter's type (R8). -/
abbrev Count := BitVec 64

/-- SZ, the size of a transaction: 1, 2 or 4 bytes (R23). There is no other size. -/
inductive Size
  | byte
  | half
  | word
  deriving DecidableEq, Repr

/-- One host transaction `(W, SZ, off, data)` (R23). `off` is the offset in the 128-byte window, so 7 bits; `data`
holds the SZ bytes of a write in its low bits, and is not looked at by a read. -/
structure Access where
  write : Bool
  size  : Size
  off   : BitVec 7
  data  : Word
  deriving DecidableEq, Repr

/-- The two encoded forms of the opcode table: a command word in CMD (R34) and a host transaction (R38). -/
inductive Wire
  | command (word : Word)
  | access (a : Access)
  deriving DecidableEq, Repr

end Sys2Proof
end

