-- ==== Sys2Proof/Config.lean ====
section
/-! DEFINITION. What an implementation fixes and the spec leaves open: the free values, constants with no body, so that
no proof can rest on what they are. Each is applied to State's counter `free`, which the operation that takes a free
value advances. See `notes/assumptions/2.md` and `notes/assumptions/4.md`. -/

namespace Sys2Proof.Config

/-- A 32-bit register's unspecified content: working registers between compressions and PCMD while BUSY = 0 (R12, R16),
and A, B, C, D, a, b, c, d, PCMD after RESET (R21, R81). `slot` tells the registers of one event apart. -/
opaque freeWord (k slot : Nat) : Word

/-- CNT's unspecified content after RESET (R21). -/
opaque freeCount (k : Nat) : Count

/-- A MSG byte's unspecified content after a model fault (R76); `off` is its window offset. -/
opaque freeByte (k off : Nat) : Byte

/-- PHASE's unspecified content after a model fault (R76), as its 2-bit code (R13). -/
opaque freePhase (k : Nat) : BitVec 2

/-- BUSY's unspecified content after a model fault (R76). -/
opaque freeBusy (k : Nat) : Bool

/-- SEQ's unspecified content after a model fault (R76), as a code that `Seq.ofCode` reads. -/
opaque freeSeq (k : Nat) : Nat

/-- Which of FINAL's two compressions the sequencer is in after a model fault (R76). -/
opaque freePass (k : Nat) : Bool

end Sys2Proof.Config
end

