-- ==== Sys2Proof/Syntax.lean ====
section
/-! DEFINITION. The syntax: one constructor for each of the 13 rows of `spec/opcode_table.json`. The first three are
the commands (R35), the other ten the host's access forms (R38). -/

namespace Sys2Proof

/-- An instruction of `MD4E-CMD1`. `rem` is FINAL's remainder length (R36), `h` and `n` select the half of CNT and the
digest word (R68, R69), `i` is the index of the first MSG byte, `off - 0x40` (R70, R71). -/
inductive Instr
  | init
  | compress
  | final (rem : BitVec 6)
  | stCmd (word : Word)
  | ldStatus
  | ldCnt (h : BitVec 1)
  | ldDigest (n : BitVec 2)
  | stMsgB (i : BitVec 6) (data : BitVec 8)
  | stMsgH (i : BitVec 6) (data : BitVec 16)
  | stMsgW (i : BitVec 6) (data : Word)
  | ldMsgB (i : BitVec 6)
  | ldMsgH (i : BitVec 6)
  | ldMsgW (i : BitVec 6)
  deriving DecidableEq, Repr

end Sys2Proof
end

