-- ==== Sys2Proof/WellFormed.lean ====
section
/-! DEFINITION. Which instructions have an encoding: the MSG forms are naturally aligned (R28, R38); every other operand
is legal by its type. -/

namespace Sys2Proof

/-- Natural alignment of a MSG byte index: `off mod SZ = 0` (R28); `0x40` is a multiple of 4, so the index is aligned
exactly where the offset is. -/
def alignedIndex (sz : Nat) (i : BitVec 6) : Bool :=
  i.toNat % sz == 0

/-- The halfword forms take an even index and the word forms a multiple of 4 (R38). -/
def Instr.wellFormed : Instr → Bool
  | .init => true
  | .compress => true
  | .final _ => true
  | .stCmd _ => true
  | .ldStatus => true
  | .ldCnt _ => true
  | .ldDigest _ => true
  | .stMsgB i _ => alignedIndex 1 i
  | .stMsgH i _ => alignedIndex 2 i
  | .stMsgW i _ => alignedIndex 4 i
  | .ldMsgB i => alignedIndex 1 i
  | .ldMsgH i => alignedIndex 2 i
  | .ldMsgW i => alignedIndex 4 i

end Sys2Proof
end

