-- ==== Sys2Proof/Decode.lean ====
section
/-! DEFINITION. The decoder of command words (R34 to R37) and of access descriptors (R38), each total and rejecting by
name; after it the encoder; and `decodeTableWord`, which reads a word numbered as the opcode table numbers it. -/

namespace Sys2Proof

/-- Why a word has no instruction: a reserved command word (R37), or a transaction no form of R38 matches (R64). -/
inductive DecodeError
  | reservedCommand
  | noForm
  deriving DecidableEq, Repr

/-! ### Command words -/

/-- OP, bits 3:0 of a command word (R34). -/
def opField (w : Word) : BitVec 4 := w.extractLsb' 0 4

/-- REM, bits 9:4 of a command word (R34, R36). -/
def remField (w : Word) : BitVec 6 := w.extractLsb' 4 6

/-- RSV, bits 31:10 of a command word (R34). -/
def rsvField (w : Word) : BitVec 22 := w.extractLsb' 10 22

/-- The opcode map of R35; every other word is reserved (R37). -/
def decodeCommand (w : Word) : Except DecodeError Instr :=
  if rsvField w ≠ 0 then .error .reservedCommand
  else if opField w = 0x1 then
    if remField w = 0 then .ok .init else .error .reservedCommand
  else if opField w = 0x2 then
    if remField w = 0 then .ok .compress else .error .reservedCommand
  else if opField w = 0x3 then .ok (.final (remField w))
  else .error .reservedCommand

/-! ### Access descriptors -/

/-- SZC: 0 for 1 byte, 1 for 2 bytes, 2 for 4 bytes (R38). -/
def Size.code : Size → BitVec 2
  | .byte => 0
  | .half => 1
  | .word => 2

/-- SZ in bytes (R23). -/
def Size.bytes : Size → Nat
  | .byte => 1
  | .half => 2
  | .word => 4

/-- The size a SZC code names; "the value 3 is not a size" (R38). -/
def sizeOfCode (c : BitVec 2) : Option Size :=
  if c = 0 then some .byte else if c = 1 then some .half else if c = 2 then some .word else none

/-- `desc = W << 9 | SZC << 7 | off` (R38). -/
def Access.desc (a : Access) : BitVec 10 :=
  (BitVec.ofBool a.write ++ a.size.code ++ a.off).cast (by decide)

/-- A row of R38's table: its match and its mask. -/
abbrev BusRow := BitVec 10 × BitVec 10

/-- A descriptor matches a form when `desc & mask = match` (R38). -/
def fits (d : BitVec 10) (r : BusRow) : Bool := d &&& r.2 == r.1

def rowStCmd : BusRow := (0x300, 0x3FF)
def rowLdStatus : BusRow := (0x104, 0x3FF)
def rowLdCnt : BusRow := (0x108, 0x3FB)
def rowLdDigest : BusRow := (0x110, 0x3F3)
def rowStMsgB : BusRow := (0x240, 0x3C0)
def rowStMsgH : BusRow := (0x2C0, 0x3C1)
def rowStMsgW : BusRow := (0x340, 0x3C3)
def rowLdMsgB : BusRow := (0x040, 0x3C0)
def rowLdMsgH : BusRow := (0x0C0, 0x3C1)
def rowLdMsgW : BusRow := (0x140, 0x3C3)

/-- The ten forms of R38, in the table's order. -/
def busRows : List BusRow :=
  [rowStCmd, rowLdStatus, rowLdCnt, rowLdDigest, rowStMsgB, rowStMsgH, rowStMsgW, rowLdMsgB, rowLdMsgH, rowLdMsgW]

/-- The form of R38 that a transaction's descriptor matches, with its operands: `h = off[2]` (R68), `n = off[3:2]` (R69),
`i = off - 0x40`, which is `off[5:0]` (R70, R71). A transaction that matches none is refused by name (R64). -/
def decodeAccess (a : Access) : Except DecodeError Instr :=
  if fits a.desc rowStCmd then .ok (.stCmd a.data)
  else if fits a.desc rowLdStatus then .ok .ldStatus
  else if fits a.desc rowLdCnt then .ok (.ldCnt (a.off.extractLsb' 2 1))
  else if fits a.desc rowLdDigest then .ok (.ldDigest (a.off.extractLsb' 2 2))
  else if fits a.desc rowStMsgB then .ok (.stMsgB (a.off.extractLsb' 0 6) (a.data.extractLsb' 0 8))
  else if fits a.desc rowStMsgH then .ok (.stMsgH (a.off.extractLsb' 0 6) (a.data.extractLsb' 0 16))
  else if fits a.desc rowStMsgW then .ok (.stMsgW (a.off.extractLsb' 0 6) a.data)
  else if fits a.desc rowLdMsgB then .ok (.ldMsgB (a.off.extractLsb' 0 6))
  else if fits a.desc rowLdMsgH then .ok (.ldMsgH (a.off.extractLsb' 0 6))
  else if fits a.desc rowLdMsgW then .ok (.ldMsgW (a.off.extractLsb' 0 6))
  else .error .noForm

/-- The decoder of both encoded forms. -/
def decode : Wire → Except DecodeError Instr
  | .command w => decodeCommand w
  | .access a => decodeAccess a

/-! ### The encoder -/

/-- A command word from its fields: RSV = 0, then REM, then OP (R34). -/
def commandWord (rem : BitVec 6) (op : BitVec 4) : Word :=
  ((0 : BitVec 22) ++ rem ++ op).cast (by decide)

/-- The window offset of MSG byte i, `0x40 + i` (R24). -/
def msgOffset (i : BitVec 6) : BitVec 7 := (1#1 ++ i).cast (by decide)

/-- The transaction of a register read at an offset (4 bytes, R28). -/
def readWord (off : BitVec 7) : Access := ⟨false, .word, off, 0⟩

/-- The transaction or command word of an instruction, from the tables of R35 and R38. -/
def encode : Instr → Wire
  | .init => .command (commandWord 0 0x1)
  | .compress => .command (commandWord 0 0x2)
  | .final rem => .command (commandWord rem 0x3)
  | .stCmd word => .access ⟨true, .word, 0x00, word⟩
  | .ldStatus => .access (readWord 0x04)
  | .ldCnt h => .access (readWord ((1#4 ++ h ++ 0#2).cast (by decide)))
  | .ldDigest n => .access (readWord ((1#3 ++ n ++ 0#2).cast (by decide)))
  | .stMsgB i data => .access ⟨true, .byte, msgOffset i, data.setWidth 32⟩
  | .stMsgH i data => .access ⟨true, .half, msgOffset i, data.setWidth 32⟩
  | .stMsgW i data => .access ⟨true, .word, msgOffset i, data⟩
  | .ldMsgB i => .access ⟨false, .byte, msgOffset i, 0⟩
  | .ldMsgH i => .access ⟨false, .half, msgOffset i, 0⟩
  | .ldMsgW i => .access ⟨false, .word, msgOffset i, 0⟩

/-- The transaction an access form stands for; a command has none of its own, since ST.CMD carries it (R34). -/
def accessOf (i : Instr) : Access :=
  match encode i with
  | .access a => a
  | .command w => ⟨true, .word, 0x00, w⟩

/-! ### The opcode table's numbering -/

/-- The bits of an encoded instruction that the opcode table numbers: the command word, or the descriptor. -/
def Wire.tableBits : Wire → Nat
  | .command w => w.toNat
  | .access a => a.desc.toNat

/-- Match and mask of the instruction's row in the opcode table. -/
def Instr.row : Instr → Nat × Nat
  | .init => (0x00000001, 0xFFFFFFFF)
  | .compress => (0x00000002, 0xFFFFFFFF)
  | .final _ => (0x00000003, 0xFFFFFC0F)
  | .stCmd _ => (rowStCmd.1.toNat, rowStCmd.2.toNat)
  | .ldStatus => (rowLdStatus.1.toNat, rowLdStatus.2.toNat)
  | .ldCnt _ => (rowLdCnt.1.toNat, rowLdCnt.2.toNat)
  | .ldDigest _ => (rowLdDigest.1.toNat, rowLdDigest.2.toNat)
  | .stMsgB _ _ => (rowStMsgB.1.toNat, rowStMsgB.2.toNat)
  | .stMsgH _ _ => (rowStMsgH.1.toNat, rowStMsgH.2.toNat)
  | .stMsgW _ _ => (rowStMsgW.1.toNat, rowStMsgW.2.toNat)
  | .ldMsgB _ => (rowLdMsgB.1.toNat, rowLdMsgB.2.toNat)
  | .ldMsgH _ => (rowLdMsgH.1.toNat, rowLdMsgH.2.toNat)
  | .ldMsgW _ => (rowLdMsgW.1.toNat, rowLdMsgW.2.toNat)

/-- The encoded form that a table row's bits stand for. A row of more than 16 bits is a command word (width 32); a
shorter one is a 10-bit descriptor, whose transaction carries data zero: DEDUCED, safe (`notes/assumptions/13.md`). A
descriptor with SZC = 3, or with a bit above bit 9, is no transaction. -/
def wireOfTable (nbits w : Nat) : Option Wire :=
  if 16 < nbits then
    if w < 2 ^ 32 then some (.command (BitVec.ofNat 32 w)) else none
  else if w < 2 ^ 10 then
    let d := BitVec.ofNat 10 w
    match sizeOfCode (d.extractLsb' 7 2) with
    | some sz => some (.access ⟨d.getLsbD 9, sz, d.extractLsb' 0 7, 0⟩)
    | none => none
  else none

/-- The instruction the decoder reads from a word numbered as the opcode table numbers it (none where it refuses). -/
def decodeTableWord (nbits w : Nat) : Option Instr :=
  match wireOfTable nbits w with
  | some x =>
    match decode x with
    | .ok i => some i
    | .error _ => none
  | none => none

end Sys2Proof
end

