-- ==== Sys2Proof/Machine/State.lean ====
section
/-! DEFINITION. The engine's state as plain data: everything `10_state.md` names, the model's own bookkeeping, the
reasons a step can stop, and the machine after reset. -/

namespace Sys2Proof.Machine

/-- Four 32-bit words: the accumulator A, B, C, D (R7), or the working registers a, b, c, d (R12). -/
structure Quad where
  a : Word
  b : Word
  c : Word
  d : Word
  deriving DecidableEq, Repr

/-- PHASE, the state machine's four states (R13); `Phase.code` in Flags.lean is their 2-bit encoding. -/
inductive Phase
  | uninit
  | inited
  | accum
  | final
  deriving DecidableEq, Repr

/-- SEQ, the hidden sequencer's micro-states, with the step index t, 0 to 47 (R17). -/
inductive Seq
  | idle
  | load
  | step (t : Fin 48)
  | commit
  | pad
  | len
  deriving DecidableEq, Repr

/-- The reasons of `raise ModelFault(reason)` with what is recorded with each (R74). The hardware's response is
unspecified in all five cases, so a step that raises one STOPS: safe (the model claims nothing of what follows). -/
inductive Fault
  /-- Code 1. Raised by a host access that no form of R38 matches (R64), and by an access form whose index is misaligned
  (R28). Safe. -/
  | badAccess (a : Access)
  /-- Code 2. Raised by every access form but LD.STATUS while BUSY = 1 (R64, R84). Safe. -/
  | busyAccess (a : Access)
  /-- Code 3. Raised by ST.CMD of a reserved word (R37, R65); and by the engine's completion in a state that no run
  reaches, BUSY = 1 with a reserved word in PCMD. Safe. -/
  | reservedCommand (word : Word)
  /-- Code 4. Raised by ST.CMD of COMPRESS or FINAL in UNINIT or FINAL (R65), LD.CNT in UNINIT (R68), LD.DIGEST outside
  FINAL (R69). Safe. -/
  | badPhase (a : Access) (phase : Phase)
  /-- Code 5. Raised by COMPRESS, FINAL (with PCMD) and LD.MSG (with the transaction) that would read a MSG byte with
  VALID = 0; `indices` are those bytes (R56, R57, R71). Safe. -/
  | unwrittenMsg (reader : Wire) (indices : List Nat)
  deriving DecidableEq, Repr

/-- The reasons the model does not accept a run. -/
inductive Refusal
  /-- Raised by an arm of exec for an instruction that has no meaning yet (no arm is left so). Safe. -/
  | notModelled (mnemonic : String)
  /-- Raised by a host access when another host has accessed this instance: "a model refuses a run with them" (R80,
  U16). Safe. -/
  | secondHost (first second : Nat)
  deriving DecidableEq, Repr

/-- One event of a run (R88): what the outside does to the engine, and when the engine itself acts. -/
inductive Event
  /-- A host's transaction (R23). -/
  | access (host : Nat) (a : Access)
  /-- The engine completes its pending command (R66), all that is left of it at once. -/
  | complete
  /-- The engine takes one micro-step of its sequencer (R17). -/
  | tick
  /-- RESET is asserted (R81), perhaps at the same instant as a host's transaction, which is then not performed (R82). -/
  | reset (during : Option (Nat × Access))
  deriving DecidableEq, Repr

/-- MSG with VALID: the written bytes of the buffer, keyed by their window offset 0x40 to 0x7F. VALID[i] = 1 exactly
where byte `0x40 + i` is listed; an unlisted byte has no value a model may read (R10, R18).
DESIGN CHOICE, safe (`notes/assumptions/3.md`). -/
abbrev Memory := List Host.Cell

/-- The state of one engine instance. -/
structure State where
  /-- The accumulator A, B, C, D (R7). -/
  acc : Quad
  /-- The byte counter CNT (R8). -/
  cnt : Count
  /-- MSG[0..63] and VALID[0..63] (R10, R18). -/
  mem : Memory
  /-- The working registers a, b, c, d (R12). -/
  work : Quad
  /-- PHASE (R13). -/
  phase : Phase
  /-- BUSY (R14). -/
  busy : Bool
  /-- PCMD, the pending command word (R16). -/
  pcmd : Word
  /-- SEQ (R17). -/
  seq : Seq
  /-- MODEL'S OWN, DEDUCED, safe: true while the sequencer runs the last compression of its command, false in the first of
  FINAL's two (`notes/assumptions/6.md`). -/
  lastPass : Bool
  /-- FAULT: the recorded reasons, the first one first; FAULT = 0 where the list is empty (R19, R76). -/
  faults : List Fault
  /-- MODEL'S OWN, DESIGN CHOICE, unsafe above a narrow read's bytes: the values the host's reads returned (R88), the latest
  first, zero-extended (`notes/assumptions/7.md`). -/
  reads : List Word
  /-- MODEL'S OWN, DESIGN CHOICE, safe: the host this instance serves, once one has accessed it (R80;
  `notes/assumptions/8.md`). -/
  host : Option Nat
  /-- MODEL'S OWN, DESIGN CHOICE, safe: the events of the run still to come (R88; `notes/assumptions/5.md`). -/
  inputs : List Event
  /-- MODEL'S OWN, DESIGN CHOICE, safe: the counter that free values are taken at (`notes/assumptions/2.md`). -/
  free : Nat
  deriving DecidableEq, Repr

/-- The engine after reset, at the start of a run (R21, R88): PHASE = UNINIT, BUSY = 0, SEQ = IDLE, every VALID = 0,
FAULT = 0. DESIGN CHOICE, unsafe: the spec gives no value for A to D, CNT, a to d and PCMD; the model names 0
(`notes/assumptions/1.md`). -/
def State.reset : State where
  acc := ⟨0, 0, 0, 0⟩
  cnt := 0
  mem := []
  work := ⟨0, 0, 0, 0⟩
  phase := .uninit
  busy := false
  pcmd := 0
  seq := .idle
  lastPass := false
  faults := []
  reads := []
  host := none
  inputs := []
  free := 0

/-- BASE, the byte address of a register window in the host's address space: OPEN, "a multiple of 128" (R6, R23), so it is
given by the window's number and every value of the type is a multiple of 128. -/
structure Base where
  page : Nat
  deriving DecidableEq, Repr

/-- One engine instance of a system: its own window, at `base`, and its own state (R6, R80). -/
structure Engine where
  base : Base
  state : State
  deriving DecidableEq, Repr

/-- Any number of engine instances (R6, R80). -/
abbrev System := List Engine

end Sys2Proof.Machine
end

