-- ==== Sys2Proof/Machine/Ops.lean ====
section
/-! DEFINITION. The named operations over the block buffer and the registers, raising a model fault, what a model fault
leaves (R76), and RESET (R81, R82). The engine has no exception entry and no return (R74, R76). -/

namespace Sys2Proof.Machine

/-- The three outcomes of a meaning on this engine. -/
abbrev Result := Host.Outcome State Fault Refusal

/-- One operation after another: the first stop is the outcome. -/
def andThen (o : Result) (k : State → Result) : Result :=
  match o with
  | .next s => k s
  | .fault f => .fault f
  | .refused r => .refused r

/-- `raise ModelFault(reason)` (R74): the step stops. DESIGN CHOICE, safe (`notes/assumptions/4.md`). -/
def raise (f : Fault) : Result := .fault f

/-- The model's code of a reason (R74's table); FAULT = 0 stands for no reason. -/
def Fault.code : Fault → Nat
  | .badAccess _ => 1
  | .busyAccess _ => 2
  | .reservedCommand _ => 3
  | .badPhase _ _ => 4
  | .unwrittenMsg _ _ => 5

/-! ### The block buffer -/

/-- The window offset of MSG[0] (R24). -/
def msgBase : Nat := 0x40

/-- The window offset after MSG[63] (R24). -/
def msgEnd : Nat := 0x80

/-- The byte at a window offset; none where nothing has written it (VALID = 0, R18). -/
def Memory.lookup : Memory → Nat → Option Byte
  | [], _ => none
  | (k, v) :: m, a => if k = a then some v else Memory.lookup m a

/-- One byte written, in its place in the rising order. -/
def Memory.insert (a : Nat) (b : Byte) : Memory → Memory
  | [] => [(a, b)]
  | (k, v) :: m =>
    if a < k then (a, b) :: (k, v) :: m
    else if a = k then (a, b) :: m
    else (k, v) :: Memory.insert a b m

/-- Bytes written at rising offsets (R70: `MSG[i + b] <- data[8b+7 : 8b]`). -/
def Memory.store (m : Memory) (a : Nat) : List Byte → Memory
  | [] => m
  | b :: bs => Memory.store (Memory.insert a b m) (a + 1) bs

/-- n bytes from an offset; none if one of them has VALID = 0. -/
def Memory.load (m : Memory) (a : Nat) : Nat → Option (List Byte)
  | 0 => some []
  | n + 1 =>
    match Memory.lookup m a, Memory.load m (a + 1) n with
    | some b, some bs => some (b :: bs)
    | _, _ => none

/-- The MSG byte indices from i on, n of them, that have VALID = 0. -/
def Memory.unwritten (m : Memory) (i n : Nat) : List Nat :=
  ((List.range n).map (i + ·)).filter fun j => (Memory.lookup m (msgBase + j)).isNone

/-- The offsets strictly rise, none being below the bound. -/
def Memory.rising (lo : Nat) : Memory → Bool
  | [] => true
  | (k, _) :: m => decide (lo ≤ k) && Memory.rising (k + 1) m

/-- The canonical form: offsets strictly rising, all of them MSG's. (An unlisted byte has no value, so no listed byte
equals what an unlisted one reads as.) -/
def Memory.wf (m : Memory) : Bool :=
  Memory.rising msgBase m && m.all fun c => decide (c.1 < msgEnd)

/-- VALID[i] (R18). -/
def State.valid (s : State) (i : Nat) : Bool := (Memory.lookup s.mem (msgBase + i)).isSome

/-- MSG[0..63], where every byte is written. -/
def State.block (s : State) : Option (List Byte) := Memory.load s.mem msgBase 64

/-! ### Registers -/

/-- Four unspecified words taken at the counter's present value. -/
def freeQuad (k : Nat) : Quad :=
  ⟨Config.freeWord k 0, Config.freeWord k 1, Config.freeWord k 2, Config.freeWord k 3⟩

/-- The accumulator becomes q and the working registers, between compressions again, hold unspecified values (R12, R53). -/
def State.commit (s : State) (q : Quad) : State :=
  { s with acc := q, work := freeQuad s.free, free := s.free + 1 }

/-- The end of a command: `BUSY <- 0` (R66). SEQ is IDLE again, and PCMD's value is unspecified from here on (R16). -/
def State.release (s : State) : State :=
  { s with busy := false, seq := .idle, lastPass := false, pcmd := Config.freeWord s.free 4, free := s.free + 1 }

/-- `PCMD <- cmd ; BUSY <- 1` (R65). -/
def State.accept (s : State) (cmd : Word) : State :=
  { s with pcmd := cmd, busy := true }

/-- A read returns its value to the host and changes nothing of the engine (R29). -/
def State.reply (s : State) (v : Word) : State :=
  { s with reads := v :: s.reads }

/-- The guard of R64's dispatch: `if BUSY = 1 and form != LD.STATUS then raise ModelFault(BusyAccess)`. BUSY alone decides:
R84 counts its window up to the STATUS read that first returns BUSY = 0, and for an access between the completion and that
read the spec gives the outcome itself, under R84, in 95_test_vectors.md P7: "If INIT has completed, r4 = 0x00000000. A model
must admit both outcomes". What R84 asks of the host up to that read is `Safety.keepsBusyWindow`. -/
def whenIdle (a : Access) (s : State) (k : Result) : Result :=
  if s.busy then raise (.busyAccess a) else k

/-! ### The host -/

/-- The host of a transaction becomes this instance's host; a second host's run is refused (R80, U16). -/
def claim (h : Nat) (s : State) (k : State → Result) : Result :=
  match s.host with
  | none => k { s with host := some h }
  | some first => if first = h then k s else .refused (.secondHost first h)

/-- The host bound once the event at the head has been taken, faulting or not: an access binds its host (R80). -/
def State.boundHost (s : State) : Option Nat :=
  match s.host, s.inputs.head? with
  | none, some (.access h _) => some h
  | host, _ => host

/-! ### RESET and what a model fault leaves -/

/-- The state RESET sets, whatever the engine was doing (R81, R82): PHASE, BUSY, SEQ and VALID as the rule says, FAULT
unchanged, and every element the rule calls unspecified a free value. -/
def State.assertReset (s : State) : State :=
  { s with
    acc := freeQuad s.free
    cnt := Config.freeCount s.free
    mem := []
    work := ⟨Config.freeWord s.free 5, Config.freeWord s.free 6, Config.freeWord s.free 7, Config.freeWord s.free 8⟩
    phase := .uninit
    busy := false
    pcmd := Config.freeWord s.free 4
    seq := .idle
    lastPass := false
    free := s.free + 1 }

/-- What a read that meets RESET returns: an unspecified value (R82, U12). -/
def State.replyFree (s : State) : State :=
  { s.reply (Config.freeWord s.free 9) with free := s.free + 1 }

/-- A transaction that meets RESET is not performed: a write has no effect, a read returns an unspecified value (R82). -/
def dropAccess (a : Access) (s : State) : State :=
  if a.write then s else s.replyFree

/-- The RESET event (R81, R82). DESIGN CHOICE, safe: what coincides with it is part of the one event
(`notes/assumptions/12.md`). -/
def resetEvent (during : Option (Nat × Access)) (s : State) : Result :=
  match during with
  | none => .next s.assertReset
  | some (h, a) => claim h s fun t => .next (dropAccess a t).assertReset

/-- PHASE of a 2-bit code (R13). -/
def Phase.ofCode (c : BitVec 2) : Phase :=
  if c = 0 then .uninit else if c = 1 then .inited else if c = 2 then .accum else .final

/-- A micro-state of SEQ for every code: a way to take an unspecified one. -/
def Seq.ofCode (n : Nat) : Seq :=
  if h : n < 48 then .step ⟨n, h⟩
  else if n = 48 then .load
  else if n = 49 then .commit
  else if n = 50 then .pad
  else if n = 51 then .len
  else .idle

/-- FAULT with one more reason recorded: "Every later fault is recorded too, and the first one is kept" (R76). -/
def State.record (s : State) (f : Fault) : State :=
  { s with faults := s.faults ++ [f] }

/-- A run's state after the event at its head raised f (R76): FAULT records the reason, the event is over, and every
register of the engine holds an unspecified value, since the faulting access or command "may have changed any engine
state". VALID, the model's own, stays (R18), and the host of a faulting access is this instance's host from then on (R80). No step goes here: the step that raises f stops, and only the account of a
whole run (Safety.lean, R88) goes on from this state. DESIGN CHOICE, safe (`notes/assumptions/4.md`). -/
def State.afterFault (s : State) (f : Fault) : State :=
  { s.record f with
    acc := freeQuad s.free
    cnt := Config.freeCount s.free
    mem := s.mem.map fun c => (c.1, Config.freeByte s.free c.1)
    work := ⟨Config.freeWord s.free 5, Config.freeWord s.free 6, Config.freeWord s.free 7, Config.freeWord s.free 8⟩
    phase := Phase.ofCode (Config.freePhase s.free)
    busy := Config.freeBusy s.free
    pcmd := Config.freeWord s.free 4
    seq := Seq.ofCode (Config.freeSeq s.free)
    lastPass := Config.freePass s.free
    host := s.boundHost
    inputs := s.inputs.tail
    free := s.free + 1 }

/-! ### The window's place in the host's address space -/

/-- The window's first byte address, a multiple of 128 (R6, R23). -/
def baseAddress (b : Base) : Nat := 128 * b.page

/-- `off = address - BASE` for an address inside the 128-byte window; outside it the transaction is not this engine's (R23).
`base` is the OPEN parameter BASE (R6), taken as an argument. DESIGN CHOICE, safe (`notes/assumptions/9.md`). -/
def windowOffset (base : Base) (address : Nat) : Option (BitVec 7) :=
  if baseAddress base ≤ address ∧ address < baseAddress base + 128 then some (BitVec.ofNat 7 (address - baseAddress base)) else none

/-- The transaction a host access at an address makes of the engine at `base` (R23). -/
def accessAt (base : Base) (write : Bool) (size : Size) (address : Nat) (data : Word) : Option Access :=
  (windowOffset base address).map fun off => ⟨write, size, off, data⟩

end Sys2Proof.Machine
end

