-- ==== Sys2Proof/Machine/Flags.lean ====
section
/-! DEFINITION. The engine's only status flags, BUSY and PHASE, and the word that shows them (R13 to R15). There are no
condition codes, carry or overflow flags. -/

namespace Sys2Proof.Machine

/-- PHASE's 2-bit encoding (R13). -/
def Phase.code : Phase → BitVec 2
  | .uninit => 0
  | .inited => 1
  | .accum => 2
  | .final => 3

/-- `STATUS = zext_32(PHASE ‖ BUSY)` (R15). PHASE is the phase from before a pending command, since only a completion
writes it. -/
def State.status (s : State) : Word :=
  (s.phase.code ++ BitVec.ofBool s.busy).setWidth 32

/-- The phases in which the accumulator holds a computation in progress: COMPRESS and FINAL need one (R56, R57). -/
def Phase.running : Phase → Bool
  | .uninit => false
  | .inited => true
  | .accum => true
  | .final => false

end Sys2Proof.Machine
end

