-- ==== Sys2Proof/Machine/Operands.lean ====
section
/-! DEFINITION. Operand forms: byte order (R26, R27), the message words X (R11), CNT's halves (R68), the accumulator word
a digest read selects (R69), and the MSG forms of the three sizes (R70, R71). -/

namespace Sys2Proof.Machine

/-- The little-endian value of up to four bytes: `b0 | b1 << 8 | ...` (R27, `00_scope.md` section 5). -/
def leValue : List Byte → Word
  | [] => 0
  | b :: bs => b.setWidth 32 ||| (leValue bs <<< 8)

/-- The SZ low bytes of a written value, the lowest first: byte b is `data[8b+7 : 8b]` (R27, R70). -/
def laneBytes (n : Nat) (v : Word) : List Byte :=
  (List.range n).map fun b => v.extractLsb' (8 * b) 8

/-- `bytes_le64` (`00_scope.md` section 5, R60). -/
def bytesLe64 (v : BitVec 64) : List Byte :=
  (List.range 8).map fun i => v.extractLsb' (8 * i) 8

/-- The 16 words of a block: `X[j] = le32(MSG[4j], ..., MSG[4j+3])` (R11). -/
def blockWords : List Byte → List Word
  | b0 :: b1 :: b2 :: b3 :: bs => leValue [b0, b1, b2, b3] :: blockWords bs
  | _ => []

/-- CNT_LO for h = 0 and CNT_HI for h = 1 (R68). -/
def State.cntHalf (s : State) (h : BitVec 1) : Word :=
  if h = 0 then s.cnt.extractLsb' 0 32 else s.cnt.extractLsb' 32 32

/-- `(A, B, C, D)[n]` (R69). -/
def Quad.word (q : Quad) (n : BitVec 2) : Word :=
  if n = 0 then q.a else if n = 1 then q.b else if n = 2 then q.c else q.d

/-- A misaligned index is a misaligned access, which matches no form (R28, R64). DESIGN CHOICE, safe
(`notes/assumptions/11.md`). -/
def whenAligned (a : Access) (i : BitVec 6) (k : Result) : Result :=
  if alignedIndex a.size.bytes i then k else raise (.badAccess a)

/-- The MSG store of any size (R64, R70): the bytes named and their VALID bits, nothing else. -/
def storeMsg (a : Access) (i : BitVec 6) (s : State) : Result :=
  whenAligned a i <| whenIdle a s <|
    .next { s with mem := Memory.store s.mem (msgBase + i.toNat) (laneBytes a.size.bytes a.data) }

/-- The MSG load of any size (R64, R71). -/
def loadMsg (a : Access) (i : BitVec 6) (s : State) : Result :=
  whenAligned a i <| whenIdle a s <|
    match Memory.load s.mem (msgBase + i.toNat) a.size.bytes with
    | some bs => .next (s.reply (leValue bs))
    | none => raise (.unwrittenMsg (.access a) (Memory.unwritten s.mem i.toNat a.size.bytes))

end Sys2Proof.Machine
end

