-- ==== Sys2Proof/Machine/Datapath.lean ====
section
/-! DEFINITION. The 32-bit rotator/adder datapath: rotation, the step functions, the step schedule and the compression
function (R40 to R53), and the renamed datapath of R54. Every addition is BitVec addition, modulo 2^32 (R40). -/

namespace Sys2Proof.Machine

/-- `rotl32(x, s)`, for 1 ≤ s ≤ 31 (R41). -/
def rotl32 (x : Word) (s : Nat) : Word := (x <<< s) ||| (x >>> (32 - s))

/-- Round 1's function (R42). -/
def fnF (x y z : Word) : Word := (x &&& y) ||| (~~~x &&& z)

/-- Round 2's function (R43). -/
def fnG (x y z : Word) : Word := (x &&& y) ||| (x &&& z) ||| (y &&& z)

/-- Round 3's function (R44). -/
def fnH (x y z : Word) : Word := x ^^^ y ^^^ z

/-- The names of the working registers, and of the accumulator words they start as. -/
inductive Reg
  | a
  | b
  | c
  | d
  deriving DecidableEq, Repr

def Quad.get (w : Quad) : Reg → Word
  | .a => w.a
  | .b => w.b
  | .c => w.c
  | .d => w.d

def Quad.set (w : Quad) (r : Reg) (v : Word) : Quad :=
  match r with
  | .a => { w with a := v }
  | .b => { w with b := v }
  | .c => { w with c := v }
  | .d => { w with d := v }

/-- Word by word, modulo 2^32 (R53). -/
def Quad.add (x y : Quad) : Quad := ⟨x.a + y.a, x.b + y.b, x.c + y.c, x.d + y.d⟩

/-- The step function of round r, for r = 1, 2, 3 (R50). -/
def roundFn (r : Nat) : Word → Word → Word → Word :=
  if r = 1 then fnF else if r = 2 then fnG else fnH

/-- K of round r (R45). -/
def roundConst (r : Nat) : Word :=
  if r = 1 then 0x00000000 else if r = 2 then 0x5A827999 else 0x6ED9EBA1

/-- ORDER of round r (R46). -/
def roundOrder (r : Nat) : List Nat :=
  if r = 1 then [0, 1, 2, 3, 4, 5, 6, 7, 8, 9, 10, 11, 12, 13, 14, 15]
  else if r = 2 then [0, 4, 8, 12, 1, 5, 9, 13, 2, 6, 10, 14, 3, 7, 11, 15]
  else [0, 8, 4, 12, 2, 10, 6, 14, 1, 9, 5, 13, 3, 11, 7, 15]

/-- SHIFT of round r (R47). -/
def roundShift (r : Nat) : List Nat :=
  if r = 1 then [3, 7, 11, 19] else if r = 2 then [3, 5, 9, 13] else [3, 9, 11, 15]

/-- CYCLE: the target and the three arguments, in every round alike (R48, R49). -/
def cycle (j : Nat) : Reg × Reg × Reg × Reg :=
  if j % 4 = 0 then (.a, .b, .c, .d)
  else if j % 4 = 1 then (.d, .a, .b, .c)
  else if j % 4 = 2 then (.c, .d, .a, .b)
  else (.b, .c, .d, .a)

/-- One row of the schedule table of R51. -/
structure Row where
  round : Nat
  k : Nat
  s : Nat
  const : Word
  tgt : Reg
  r1 : Reg
  r2 : Reg
  r3 : Reg
  deriving DecidableEq, Repr

/-- What step t takes: `r = t div 16 + 1`, `j = t mod 16`, and rules R45 to R49 at r and j (R50). -/
def stepRow (t : Nat) : Row :=
  let r := t / 16 + 1
  let j := t % 16
  let c := cycle j
  ⟨r, (roundOrder r).getD j 0, (roundShift r).getD (j % 4) 0, roundConst r, c.1, c.2.1, c.2.2.1, c.2.2.2⟩

/-- The four-input adder of one step (R50). -/
def stepSum (X : List Word) (w : Quad) (row : Row) : Word :=
  w.get row.tgt + roundFn row.round (w.get row.r1) (w.get row.r2) (w.get row.r3) + X.getD row.k 0 + row.const

/-- STEP(t): the sum, rotated, into the target; only the target changes (R50). X is a block's 16 words. -/
def stepWork (X : List Word) (w : Quad) (t : Nat) : Quad :=
  w.set (stepRow t).tgt (rotl32 (stepSum X w (stepRow t)) (stepRow t).s)

/-- The working registers after STEP(0) to STEP(n-1), in order (R52). -/
def runSteps (X : List Word) (w : Quad) (n : Nat) : Quad :=
  (List.range n).foldl (stepWork X) w

/-- `Compress(ACC, X)`: LOAD, STEP(0) to STEP(47), COMMIT (R52, R53). -/
def compress (acc : Quad) (X : List Word) : Quad :=
  acc.add (runSteps X acc 48)

/-- One step of the renamed datapath (R54): the four registers as a rotating queue. -/
def queueStep (X : List Word) (q : Quad) (t : Nat) : Quad :=
  let row := stepRow t
  ⟨q.d, rotl32 (q.a + roundFn row.round q.b q.c q.d + X.getD row.k 0 + row.const) row.s, q.b, q.c⟩

/-- The compression function on the renamed datapath (R54). -/
def compressQueue (acc : Quad) (X : List Word) : Quad :=
  acc.add ((List.range 48).foldl (queueStep X) acc)

end Sys2Proof.Machine
end

