-- ==== Sys2Proof/Machine/Command.lean ====
section
/-! DEFINITION. The three commands, as their completion performs them (R55, R56, R57, R66): each meaning is the
command's whole effect, from the pending command to BUSY = 0. -/

namespace Sys2Proof.Machine

/-! ### What the commands share with the sequencer -/

/-- The IV (R20, R55). -/
def iv : Quad := ⟨0x67452301, 0xEFCDAB89, 0x98BADCFE, 0x10325476⟩

/-- A MSG byte the pending command reads has never been written (R56, R57); PCMD is recorded with the indices (R74). -/
def raiseUnwritten (s : State) (n : Nat) : Result :=
  raise (.unwrittenMsg (.command s.pcmd) (Memory.unwritten s.mem 0 n))

/-- `(A, B, C, D) <- Compress((A, B, C, D), X[0..15])` with X read from MSG (R52, R11). -/
def compressMsg (s : State) : Result :=
  match s.block with
  | some bs => .next (s.commit (compress s.acc (blockWords bs)))
  | none => raiseUnwritten s 64

/-- PAD (R57, R58): `CNT <- CNT +64 n`, the marker 0x80 at index n, zeros after it; every byte is then VALID. -/
def padMsg (n : Nat) (s : State) : State :=
  { s with
    cnt := s.cnt + BitVec.ofNat 64 n
    mem := Memory.store s.mem (msgBase + n) (0x80 :: List.replicate (63 - n) 0x00) }

/-- "a fresh all-zero 64-byte block" (R57, R59). -/
def clearMsg (s : State) : State :=
  { s with mem := Memory.store s.mem msgBase (List.replicate 64 0x00) }

/-- The length field's value, `L = (CNT << 3) mod 2^64` (R60). -/
def bitLength (cnt : Count) : BitVec 64 := cnt <<< 3

/-- LEN (R57, R60): `bytes_le64(L)` into MSG[56..63]. -/
def writeLength (s : State) : State :=
  { s with mem := Memory.store s.mem (msgBase + 56) (bytesLe64 (bitLength s.cnt)) }

/-- The end of COMPRESS: CNT, PHASE and BUSY (R56, R66). -/
def endCompress (s : State) : State :=
  { s with cnt := s.cnt + 64, phase := .accum }.release

/-- The end of FINAL: PHASE and BUSY (R57, R66). -/
def endFinal (s : State) : State :=
  { s with phase := .final }.release

/-- FINAL's overflow (drive step 3, R59): where the marker stands in the length field's place, the block is compressed
as it is and MSG cleared. -/
def overflow (n : Nat) (s : State) : Result :=
  if 56 ≤ n then andThen (compressMsg s) fun t => .next (clearMsg t) else .next s

/-! ### The meanings -/

/-- INIT (R55): legal in every phase; MSG, VALID and the working registers are unchanged. -/
def execInit (s : State) : Result :=
  .next { s with acc := iv, cnt := 0, phase := .inited }.release

/-- COMPRESS (R56): MSG and VALID are unchanged. Its phase was checked when it was accepted (R65), and is not checked again:
DESIGN CHOICE, unsafe only in states no run reaches (`notes/assumptions/11.md`). -/
def execCompress (s : State) : Result :=
  andThen (compressMsg s) fun t => .next (endCompress t)

/-- FINAL n (R57): the remainder's bytes must be written; then PAD, the overflow, LEN and the last compression. -/
def execFinal (rem : BitVec 6) (s : State) : Result :=
  match Memory.load s.mem msgBase rem.toNat with
  | none => raiseUnwritten s rem.toNat
  | some _ =>
    andThen (overflow rem.toNat (padMsg rem.toNat s)) fun t =>
      andThen (compressMsg (writeLength t)) fun u => .next (endFinal u)

end Sys2Proof.Machine
end

