-- ==== Sys2Proof/Machine/Access.lean ====
section
/-! DEFINITION. The ten access forms of the host (R65, R67 to R71). The checks of each stand in R77's order: BadAccess,
BusyAccess, ReservedCommand, BadPhase, UnwrittenMsg. -/

namespace Sys2Proof.Machine

/-- Whether a command needs a computation in progress: COMPRESS and FINAL do, INIT is legal in every phase (R65). -/
def needsRunning : Instr → Bool
  | .compress => true
  | .final _ => true
  | _ => false

/-- ST.CMD (R65): accepts the command word, or faults; nothing of the command is performed before its completion. -/
def execStCmd (word : Word) (s : State) : Result :=
  whenIdle (accessOf (.stCmd word)) s <|
    match decodeCommand word with
    | .error _ => raise (.reservedCommand word)
    | .ok i =>
      if needsRunning i && !s.phase.running then raise (.badPhase (accessOf (.stCmd word)) s.phase)
      else .next (s.accept word)

/-- LD.STATUS (R67): the one access that is legal while BUSY = 1. -/
def execLdStatus (s : State) : Result :=
  .next (s.reply s.status)

/-- LD.CNT (R68): CNT is unspecified before the first INIT. -/
def execLdCnt (h : BitVec 1) (s : State) : Result :=
  whenIdle (accessOf (.ldCnt h)) s <|
    if s.phase = .uninit then raise (.badPhase (accessOf (.ldCnt h)) s.phase)
    else .next (s.reply (s.cntHalf h))

/-- LD.DIGEST (R69): the document's `finalize`, legal in phase FINAL only. -/
def execLdDigest (n : BitVec 2) (s : State) : Result :=
  whenIdle (accessOf (.ldDigest n)) s <|
    if s.phase = .final then .next (s.reply (s.acc.word n))
    else raise (.badPhase (accessOf (.ldDigest n)) s.phase)

/-- ST.MSG.B (R70). -/
def execStMsgB (i : BitVec 6) (data : BitVec 8) (s : State) : Result :=
  storeMsg (accessOf (.stMsgB i data)) i s

/-- ST.MSG.H (R70). -/
def execStMsgH (i : BitVec 6) (data : BitVec 16) (s : State) : Result :=
  storeMsg (accessOf (.stMsgH i data)) i s

/-- ST.MSG.W (R70). -/
def execStMsgW (i : BitVec 6) (data : Word) (s : State) : Result :=
  storeMsg (accessOf (.stMsgW i data)) i s

/-- LD.MSG.B (R71). -/
def execLdMsgB (i : BitVec 6) (s : State) : Result :=
  loadMsg (accessOf (.ldMsgB i)) i s

/-- LD.MSG.H (R71). -/
def execLdMsgH (i : BitVec 6) (s : State) : Result :=
  loadMsg (accessOf (.ldMsgH i)) i s

/-- LD.MSG.W (R71). -/
def execLdMsgW (i : BitVec 6) (s : State) : Result :=
  loadMsg (accessOf (.ldMsgW i)) i s

end Sys2Proof.Machine
end

