-- ==== Sys2Proof/Machine/Dispatch.lean ====
section
/-! DEFINITION. exec: one arm per constructor of Instr, each one direct call of that instruction's meaning. -/

namespace Sys2Proof.Machine

def exec (i : Instr) (s : State) : Host.Outcome State Fault Refusal :=
  match i with
  | .init => Sys2Proof.Machine.execInit s
  | .compress => Sys2Proof.Machine.execCompress s
  | .final rem => Sys2Proof.Machine.execFinal rem s
  | .stCmd word => Sys2Proof.Machine.execStCmd word s
  | .ldStatus => Sys2Proof.Machine.execLdStatus s
  | .ldCnt h => Sys2Proof.Machine.execLdCnt h s
  | .ldDigest n => Sys2Proof.Machine.execLdDigest n s
  | .stMsgB j data => Sys2Proof.Machine.execStMsgB j data s
  | .stMsgH j data => Sys2Proof.Machine.execStMsgH j data s
  | .stMsgW j data => Sys2Proof.Machine.execStMsgW j data s
  | .ldMsgB j => Sys2Proof.Machine.execLdMsgB j s
  | .ldMsgH j => Sys2Proof.Machine.execLdMsgH j s
  | .ldMsgW j => Sys2Proof.Machine.execLdMsgW j s

end Sys2Proof.Machine
end

