-- ==== Sys2Proof/Machine/Sequencer.lean ====
section
/-! DEFINITION. The hidden sequencer (R17): the pending command in micro-steps, IDLE, PAD, LOAD, STEP(0) to STEP(47),
COMMIT and LEN. The host can see none of them (R66); that they come to the command's one transition of Command.lean is a
statement of this package. -/

namespace Sys2Proof.Machine

/-- The sequencer goes to a micro-state. -/
def State.enter (s : State) (q : Seq) : State := { s with seq := q }

/-- The sequencer goes to LOAD, for the command's last compression or for the first of FINAL's two. -/
def State.beginPass (s : State) (last : Bool) : State := { s with seq := .load, lastPass := last }

/-- The pending command's start: its check of VALID, then the first micro-state. INIT has no micro-state of its own. -/
def startCommand (s : State) : Result :=
  match decodeCommand s.pcmd with
  | .ok .init => execInit s
  | .ok .compress =>
    match Memory.load s.mem msgBase 64 with
    | some _ => .next (s.beginPass true)
    | none => raiseUnwritten s 64
  | .ok (.final rem) =>
    match Memory.load s.mem msgBase rem.toNat with
    | some _ => .next (s.enter .pad)
    | none => raiseUnwritten s rem.toNat
  | _ => raise (.reservedCommand s.pcmd)

/-- n of the FINAL in PCMD: `zext_32(PCMD[9:4])` (R57). -/
def pendingRem (s : State) : Nat := (remField s.pcmd).toNat

/-- PAD, before FINAL's first compression (R17); the marker's place decides whether LEN comes before it too (R59). -/
def tickPad (s : State) : State :=
  let t := padMsg (pendingRem s) s
  if 56 ≤ pendingRem s then t.beginPass false else t.enter .len

/-- LOAD: the accumulator into the working registers (R52). -/
def tickLoad (s : State) : State :=
  { s with work := s.acc, seq := .step 0 }

/-- STEP(t), "with t advancing by 1"; "STEP(47) is followed by COMMIT" (R17, R50). -/
def tickStep (t : Fin 48) (s : State) : Result :=
  match s.block with
  | none => raiseUnwritten s 64
  | some bs =>
    let next := if h : t.val + 1 < 48 then Seq.step ⟨t.val + 1, h⟩ else Seq.commit
    .next { s with work := stepWork (blockWords bs) s.work t.val, seq := next }

/-- COMMIT (R53), and what follows it: LEN after the first of FINAL's two compressions, else the command's end. -/
def tickCommit (s : State) : Result :=
  let t := s.commit (s.acc.add s.work)
  if s.lastPass then
    match decodeCommand s.pcmd with
    | .ok .compress => .next (endCompress t)
    | .ok (.final _) => .next (endFinal t)
    | _ => raise (.reservedCommand s.pcmd)
  else .next ((clearMsg t).enter .len)

/-- LEN, before FINAL's last compression (R17). -/
def tickLen (s : State) : State :=
  (writeLength s).beginPass true

/-- One micro-step of the engine; nothing where no command is pending. -/
def tick (s : State) : Result :=
  if s.busy then
    match s.seq with
    | .idle => startCommand s
    | .pad => .next (tickPad s)
    | .load => .next (tickLoad s)
    | .step t => tickStep t s
    | .commit => tickCommit s
    | .len => .next (tickLen s)
  else .next s

/-- At most k micro-steps, to the end of the pending command. -/
def runTicks : Nat → State → Result
  | 0, s => .next s
  | k + 1, s => if s.busy then andThen (tick s) (runTicks k) else .next s

/-- As many micro-steps as any command takes: FINAL of two blocks, 104. -/
def maxTicks : Nat := 104

end Sys2Proof.Machine
end

