-- ==== Sys2Proof/Machine/Events.lean ====
section
/-! DEFINITION. What each event of a run does (R64, R66, R88): a host's transaction is decoded and its form's meaning
performed; a completion performs the pending command. The instances of R80, each with its window, stand beside each other. -/

namespace Sys2Proof.Machine

/-- A host's transaction (R64): the form its descriptor matches is performed; one that matches none faults first. -/
def hostAccess (h : Nat) (a : Access) (s : State) : Result :=
  claim h s fun t =>
    match decodeAccess a with
    | .ok i => exec i t
    | .error _ => raise (.badAccess a)

/-- Completion (R66): enabled when BUSY = 1, it performs the rule of PCMD; a command whose micro-steps have begun is run
to its end. Where nothing is pending it is not enabled and nothing happens. -/
def complete (s : State) : Result :=
  if s.busy then
    if s.seq = .idle then
      match decodeCommand s.pcmd with
      | .ok i => exec i s
      | .error _ => raise (.reservedCommand s.pcmd)
    else runTicks maxTicks s
  else .next s

/-- One event's effect, in a state from which it has been taken. -/
def performEvent (e : Event) (s : State) : Result :=
  match e with
  | .access h a => hostAccess h a s
  | .complete => complete s
  | .tick => tick s
  | .reset during => resetEvent during s

/-- The events still to come once the one at the head is taken. -/
def State.pop (s : State) : State := { s with inputs := s.inputs.tail }

/-- The events placed before those still to come. -/
def State.push (s : State) (e : Event) : State := { s with inputs := e :: s.inputs }

/-- s with an encoded instruction where the very next step takes it: a transaction as the next event, from the host that
this instance serves; a command word as the pending command, accepted and complete next. -/
def State.place (s : State) (x : Wire) : State :=
  match x with
  | .access a => s.push (.access (s.host.getD 0) a)
  | .command w => { s with pcmd := w, busy := true, seq := .idle }.push .complete

/-! ### Systems of instances -/

/-- Each instance has a window of its own (R6, R80): no two have the same BASE. -/
def System.wf (sys : System) : Prop := (sys.map (·.base)).Nodup

/-- A step of instance k of a system; the others stay as they are (R80). -/
def stepInstance (step : State → Result) (k : Nat) (sys : System) : Host.Outcome System Fault Refusal :=
  match sys[k]? with
  | none => .next sys
  | some e =>
    match step e.state with
    | .next t => .next (sys.set k { e with state := t })
    | .fault f => .fault f
    | .refused r => .refused r

/-- A host's access at an address, as one engine sees it: the transaction joins its events where the address lies in its
window, and is not its own elsewhere (R23). -/
def Engine.hear (h : Nat) (write : Bool) (size : Size) (address : Nat) (data : Word) (e : Engine) : Engine :=
  match accessAt e.base write size address data with
  | none => e
  | some a => { e with state := { e.state with inputs := e.state.inputs ++ [.access h a] } }

/-- A host's access at an address of the host's address space (R23, R80): the instance whose window holds the address gets
the transaction. DESIGN CHOICE, safe: an access outside every window reaches no engine (`notes/assumptions/9.md`). -/
def issue (h : Nat) (write : Bool) (size : Size) (address : Nat) (data : Word) (sys : System) : System :=
  sys.map (Engine.hear h write size address data)

end Sys2Proof.Machine
end

