-- ==== Sys2Proof/Machine/Step.lean ====
section
/-! DEFINITION. One step of the machine: the next event of the run, or, where no event is left, the engine's own
completion, "always enabled while BUSY = 1" (R86); an idle engine with no event waits (R81). -/

namespace Sys2Proof.Machine

/-- One step (R88). DESIGN CHOICE, safe: with no event left a pending command completes (R86) and an idle engine waits
(`notes/assumptions/5.md`). -/
def step (s : State) : Host.Outcome State Fault Refusal :=
  match s.inputs with
  | [] => complete s
  | e :: _ => performEvent e s.pop

/-- s with the instruction that a word of the opcode table encodes placed where the very next step runs it; a word
that is no command word and no transaction places nothing. DESIGN CHOICE, unsafe for a command, which has not passed acceptance
(`notes/assumptions/5.md`). -/
def State.withFetchWord (s : State) (nbits w : Nat) : State :=
  match wireOfTable nbits w with
  | some x => s.place x
  | none => s

end Sys2Proof.Machine
end

