-- ==== Sys2Proof/Machine/Driver.lean ====
section
/-! DEFINITION. The host's side, where the spec gives it: the pseudo-instructions of R39 and the driver of R72 as events of
a run, the digest of the words read, its text form (R73), and the number of compressions (R62). No step calls any of it:
a run's events come from outside the machine. -/

namespace Sys2Proof.Machine

/-- `st.w off, v` (R39). -/
def stw (h : Nat) (off : BitVec 7) (v : Word) : Event := .access h ⟨true, .word, off, v⟩

/-- `st.b off, v` (R39). -/
def stb (h : Nat) (off : BitVec 7) (v : Byte) : Event := .access h ⟨true, .byte, off, v.setWidth 32⟩

/-- `ld.w off` (R39). -/
def ldw (h : Nat) (off : BitVec 7) : Event := .access h (readWord off)

/-- The command pseudo-instructions `INIT`, `COMPRESS`, `FINAL n`: the command's word stored to CMD (R39). -/
def command (h : Nat) (i : Instr) : List Event :=
  match encode i with
  | .command w => [stw h 0x00 w]
  | .access _ => []

/-- `poll` of a command that completes after `busy` STATUS reads: every read but the last returns BUSY = 1 (R39). How
many there are depends on the command's latency, which the model leaves open (R87). -/
def poll (h busy : Nat) : List Event :=
  List.replicate busy (ldw h 0x04) ++ [.complete, ldw h 0x04]

/-- `ldblk B`: the block's words at 0x40, 0x44, ... (R39). -/
def ldblk (h : Nat) (bs : List Byte) : List Event :=
  (blockWords bs).mapIdx fun j x => stw h (BitVec.ofNat 7 (0x40 + 4 * j)) x

/-- `ldtail T`: the tail's bytes at 0x40, 0x41, ... (R39). -/
def ldtail (h : Nat) (bs : List Byte) : List Event :=
  bs.mapIdx fun i b => stb h (BitVec.ofNat 7 (0x40 + i)) b

/-- `rddigest`: the four DIGEST reads (R39). -/
def rddigest (h : Nat) : List Event := [ldw h 0x10, ldw h 0x14, ldw h 0x18, ldw h 0x1C]

/-- Drive step 1 for k full chunks, then the tail and FINAL (R72). `busy j` is how many STATUS reads of the poll after the
run's j-th command return BUSY = 1: each command has its own latency (R87). -/
def drive (h : Nat) (busy : Nat → Nat) (j : Nat) : Nat → List Byte → List Event
  | 0, m => ldtail h m ++ command h (.final (BitVec.ofNat 6 m.length)) ++ poll h (busy j) ++ rddigest h
  | k + 1, m => ldblk h (m.take 64) ++ command h .compress ++ poll h (busy j) ++ drive h busy (j + 1) k (m.drop 64)

/-- The events of `md4 M` (R72): INIT, the run's command 0, one COMPRESS for each full chunk, FINAL, the DIGEST reads. -/
def md4 (h : Nat) (busy : Nat → Nat) (m : List Byte) : List Event :=
  command h .init ++ poll h (busy 0) ++ drive h busy 1 (m.length / 64) m

/-- The digest of the four words read, each as 4 little-endian bytes (R26, R69). -/
def digestBytes (words : List Word) : List Byte := words.flatMap (laneBytes 4)

/-- `rddigest -> D`: D is taken from r0 to r3, the values that the last four reads returned (R39, R72); `reads` has the latest
first. -/
def digestRead (reads : List Word) : Option (List Byte) :=
  match reads with
  | r3 :: r2 :: r1 :: r0 :: _ => some (digestBytes [r0, r1, r2, r3])
  | _ => none

/-- A nibble as a lowercase hexadecimal digit. -/
def hexDigit (n : BitVec 4) : Char :=
  "0123456789abcdef".toList.getD n.toNat '0'

/-- The text form of a digest: two digits a byte, high nibble first (R73). -/
def hexText (bs : List Byte) : String :=
  String.ofList (bs.flatMap fun b => [hexDigit (b.extractLsb' 4 4), hexDigit (b.extractLsb' 0 4)])

/-- How often a command calls Compress: COMPRESS once, FINAL once or twice (R59, R62). -/
def compressions : Instr → Nat
  | .compress => 1
  | .final rem => if 56 ≤ rem.toNat then 2 else 1
  | _ => 0

/-- The calls of Compress that the driver's commands make for a message of L bytes (R62). -/
def driverCompressions (L : Nat) : Nat :=
  L / 64 * compressions .compress + compressions (.final (BitVec.ofNat 6 (L % 64)))

end Sys2Proof.Machine
end

