-- ==== Sys2Proof/Safety.lean ====
section
/-! DEFINITION. What counts as a run and what a claim may say of it (R76, R88), and the invariants that rule out the
states no run reaches. -/

namespace Sys2Proof.Safety

open Sys2Proof.Machine

/-- The state after one step of a run. A model fault is recorded and the engine's registers are unspecified from there on
(R76); a refused event makes the run one the model does not accept (U16). -/
def advance (s : State) : Option State :=
  match step s with
  | .next t => some t
  | .fault f => some (s.afterFault f)
  | .refused _ => none

/-- The state after k steps of a run. -/
def run : Nat → State → Option State
  | 0, s => some s
  | k + 1, s => (advance s).bind (run k)

/-- FAULT = 0: the premise of every claim about a run (R76). -/
def clean (s : State) : Bool := s.faults.isEmpty

/-- A run's observable result (R88): what its reads returned, in order, FAULT with its first reason, and the final
host-readable state: STATUS (R67), CNT where it is readable (R68), the digest in phase FINAL (R69), MSG's written bytes
(R71). DESIGN CHOICE, safe: with BUSY = 1 at the end no read of CNT, the digest or MSG is legal (R64), so none of them
belongs to the result (`notes/assumptions/14.md`). -/
structure Observation where
  reads : List Word
  fault : Option Fault
  status : Word
  cnt : Option Count
  digest : Option Quad
  msg : Option Memory
  deriving DecidableEq, Repr

/-- The observable result of a run that ends in s. -/
def observe (s : State) : Observation where
  reads := s.reads.reverse
  fault := s.faults.head?
  status := s.status
  cnt := if s.busy = false ∧ s.phase ≠ .uninit then some s.cnt else none
  digest := if s.busy = false ∧ s.phase = .final then some s.acc else none
  msg := if s.busy then none else some s.mem

/-- The events a run is made of: host transactions, completions and resets (R88). A micro-step is the engine's hidden
own, no event of a run (R17, R66). -/
def ofRun (e : Event) : Bool :=
  match e with
  | .access _ _ => true
  | .complete => true
  | .reset _ => true
  | .tick => false

/-- The machine at the start of the run of these events: reset, with FAULT = 0 (R88). -/
def start (events : List Event) : State := { State.reset with inputs := events }

/-- The observable result of the run of these events from reset (R88), which ends where they end, with a command still
pending or not; none where they are no run, or a run the model refuses. -/
def outcome (events : List Event) : Option Observation :=
  if events.all ofRun then (run events.length (start events)).map observe else none

/-- `md4 M -> D` (R72) from a state with no command pending: the digest that the driver's run reads; none where a fault is
recorded, since nothing may be claimed of such a run (R76). `busy` is as in `drive`. -/
def md4Digest (h : Nat) (busy : Nat → Nat) (m : List Byte) (s : State) : Option (List Byte) :=
  let events := md4 h busy m
  (run events.length { s with inputs := events }).bind fun t => if clean t then digestRead t.reads else none

/-! ### The busy window, from the host's side (R84) -/

/-- Whether the next event is one the host may issue inside the window: no host access but LD.STATUS (descriptor 0x104). -/
def onlyStatus (s : State) : Bool :=
  match s.inputs.head? with
  | some (.access _ a) => decide (a.desc = 0x104)
  | _ => true

/-- Whether the window is open after the next event: a CMD write (descriptor 0x300) opens it, and a STATUS read that returns
BUSY = 0 or a reset closes it. -/
def windowAfter (opened : Bool) (s : State) : Bool :=
  match s.inputs.head? with
  | some (.access _ a) => decide (a.desc = 0x300) || (opened && (decide (a.desc ≠ 0x104) || s.busy))
  | some (.reset _) => false
  | _ => opened

/-- The host's duty of R84 over k steps: from each CMD write to the STATUS read that first returns BUSY = 0 it issues only
LD.STATUS, as a host does that follows every command with `poll`. -/
def keepsBusyWindow : Nat → Bool → State → Bool
  | 0, _, _ => true
  | k + 1, opened, s =>
    (!opened || onlyStatus s) &&
      match advance s with
      | none => true
      | some t => keepsBusyWindow k (windowAfter opened s) t

/-- The pending command is one that acceptance lets through: a command word, with a computation in progress where it needs
one (R65). -/
def acceptable (s : State) : Bool :=
  match decodeCommand s.pcmd with
  | .ok i => !needsRunning i || s.phase.running
  | .error _ => false

/-- Whether every byte of MSG is written. -/
def blockWritten (s : State) : Bool := s.block.isSome

/-- What the micro-state SEQ says of the pending command (R17, R57): INIT has no micro-state, PAD and LEN are FINAL's, the
first of two compressions belongs to a FINAL whose marker overflows (R59), and from PAD on the bytes the command reads are
written. -/
def sequenced (s : State) : Bool :=
  match decodeCommand s.pcmd with
  | .ok .compress =>
    match s.seq with
    | .idle => true
    | .load => blockWritten s && s.lastPass
    | .step _ => blockWritten s && s.lastPass
    | .commit => blockWritten s && s.lastPass
    | .pad => false
    | .len => false
  | .ok (.final rem) =>
    match s.seq with
    | .idle => true
    | .load => blockWritten s && (s.lastPass || decide (56 ≤ rem.toNat))
    | .step _ => blockWritten s && (s.lastPass || decide (56 ≤ rem.toNat))
    | .commit => blockWritten s && (s.lastPass || decide (56 ≤ rem.toNat))
    | .pad => (Memory.load s.mem msgBase rem.toNat).isSome
    | .len => blockWritten s
  | _ => decide (s.seq = .idle)

/-- The control invariant: with BUSY = 1 the pending command is one that acceptance lets through and SEQ is one of its
micro-states; with BUSY = 0 the sequencer is IDLE (R14, R16, R17, R65). -/
def coherent (s : State) : Bool :=
  if s.busy then acceptable s && sequenced s else decide (s.seq = .idle)

/-! ### Terms the statements use -/

/-- What no command and no MSG store touches: FAULT, the values the host has read, the host, the events to come. -/
def sameRun (s t : State) : Prop :=
  t.faults = s.faults ∧ t.reads = s.reads ∧ t.host = s.host ∧ t.inputs = s.inputs

/-- No command is pending and the sequencer is IDLE. -/
def atRest (s : State) : Prop := s.busy = false ∧ s.seq = .idle

/-- The host h may access this instance: it is the instance's host or becomes it (R80). -/
def serves (s : State) (h : Nat) : Prop := s.host = none ∨ s.host = some h

/-- The three commands (R35), as against the ten access forms (R38). -/
def isCommand : Instr → Bool
  | .init => true
  | .compress => true
  | .final _ => true
  | _ => false

/-- R37's three conditions, on the number the word is: OP is its remainder by 16, REM the next six bits, RSV the rest. -/
def reservedWord (w : Word) : Prop :=
  (w.toNat % 16 = 0 ∨ 4 ≤ w.toNat % 16) ∨ w.toNat / 1024 ≠ 0 ∨
    (w.toNat / 16 % 64 ≠ 0 ∧ (w.toNat % 16 = 1 ∨ w.toNat % 16 = 2))

/-- The transactions that match a row of R24's table: direction, size and offset as the row allows, naturally aligned. -/
def allowedAccess (a : Access) : Prop :=
  (a.write = true ∧ a.size = .word ∧ a.off.toNat = 0x00) ∨
  (a.write = false ∧ a.size = .word ∧ a.off.toNat % 4 = 0 ∧ 0x04 ≤ a.off.toNat ∧ a.off.toNat ≤ 0x1C) ∨
  (0x40 ≤ a.off.toNat ∧ a.off.toNat % a.size.bytes = 0)

end Sys2Proof.Safety
end

