-- ==== Sys2Proof/Certificates/Slice0/Obligations.lean ====
section
/-! DEFINITION. The statements for the provers, from the spec's numbered rules. Each is about the engine's instructions,
its step or its datapath; none is about a program. -/

open Sys2Proof Sys2Proof.Machine Sys2Proof.Safety

/-! ### Encoding -/

/-- Every well-formed instruction is read back from its own encoding, whatever its operands. -/
def Obligations.DecodeOfEncodeIsTheInstruction : Prop :=
  ∀ i : Instr, i.wellFormed = true → decode (encode i) = .ok i

/-- A command word that decodes is the encoding of what it decodes to: no bit of it is left unread. -/
def Obligations.EncodeOfDecodedCommandIsTheWord : Prop :=
  ∀ (w : Word) (i : Instr), decodeCommand w = .ok i → encode i = .command w ∧ isCommand i = true

/-- A transaction that decodes gives a well-formed access form, whose own transaction has the same descriptor and, for a
write, the same bytes. -/
def Obligations.EncodeOfDecodedAccessIsTheTransaction : Prop :=
  ∀ (a : Access) (i : Instr), decodeAccess a = .ok i →
    i.wellFormed = true ∧ isCommand i = false ∧ (accessOf i).desc = a.desc ∧
      (a.write = true → laneBytes a.size.bytes (accessOf i).data = laneBytes a.size.bytes a.data)

/-- R35: the opcode map. The words 1, 2 and 3 + 16 n are INIT, COMPRESS and FINAL n; no other word is a command. -/
def Obligations.OpcodeMapIsExact : Prop :=
  ∀ w : Word,
    (decodeCommand w = .ok .init ↔ w.toNat = 1) ∧ (decodeCommand w = .ok .compress ↔ w.toNat = 2) ∧
    (∀ n : BitVec 6, decodeCommand w = .ok (.final n) ↔ w.toNat = 3 + 16 * n.toNat) ∧
    (∀ i, decodeCommand w = .ok i → i = .init ∨ i = .compress ∨ ∃ n, i = .final n)

/-- R37: which words are reserved, and that writing one to CMD raises ReservedCommand, in every phase. -/
def Obligations.ReservedWordsAreRefusedAtTheWrite : Prop :=
  ∀ w : Word, (decodeCommand w = .error .reservedCommand ↔ reservedWord w) ∧
    (reservedWord w → ∀ s : State, s.busy = false → exec (.stCmd w) s = .fault (.reservedCommand w))

/-- R38: the descriptor's formula; the ten rows with the form and the operands each is decoded to; that a descriptor matching none
of them is refused; that no descriptor matches two; and that SZC = 3 is not a size. -/
def Obligations.DescriptorTableDecides : Prop :=
  (∀ a : Access, a.desc.toNat = (if a.write then 512 else 0) + a.size.code.toNat * 128 + a.off.toNat) ∧
  (∀ a : Access,
    (a.desc &&& 0x3FF = 0x300 → decodeAccess a = .ok (.stCmd a.data)) ∧
    (a.desc &&& 0x3FF = 0x104 → decodeAccess a = .ok .ldStatus) ∧
    (a.desc &&& 0x3FB = 0x108 → decodeAccess a = .ok (.ldCnt (a.off.extractLsb' 2 1))) ∧
    (a.desc &&& 0x3F3 = 0x110 → decodeAccess a = .ok (.ldDigest (a.off.extractLsb' 2 2))) ∧
    (a.desc &&& 0x3C0 = 0x240 → decodeAccess a = .ok (.stMsgB (a.off.extractLsb' 0 6) (a.data.extractLsb' 0 8))) ∧
    (a.desc &&& 0x3C1 = 0x2C0 → decodeAccess a = .ok (.stMsgH (a.off.extractLsb' 0 6) (a.data.extractLsb' 0 16))) ∧
    (a.desc &&& 0x3C3 = 0x340 → decodeAccess a = .ok (.stMsgW (a.off.extractLsb' 0 6) a.data)) ∧
    (a.desc &&& 0x3C0 = 0x040 → decodeAccess a = .ok (.ldMsgB (a.off.extractLsb' 0 6))) ∧
    (a.desc &&& 0x3C1 = 0x0C0 → decodeAccess a = .ok (.ldMsgH (a.off.extractLsb' 0 6))) ∧
    (a.desc &&& 0x3C3 = 0x140 → decodeAccess a = .ok (.ldMsgW (a.off.extractLsb' 0 6))) ∧
    ((∀ r ∈ busRows, a.desc &&& r.2 ≠ r.1) → decodeAccess a = .error .noForm)) ∧
  busRows = [(0x300, 0x3FF), (0x104, 0x3FF), (0x108, 0x3FB), (0x110, 0x3F3), (0x240, 0x3C0), (0x2C0, 0x3C1),
    (0x340, 0x3C3), (0x040, 0x3C0), (0x0C0, 0x3C1), (0x140, 0x3C3)] ∧
  (∀ d : BitVec 10, (busRows.filter fun r => d &&& r.2 == r.1).length ≤ 1) ∧
  sizeOfCode 0 = some .byte ∧ sizeOfCode 1 = some .half ∧ sizeOfCode 2 = some .word ∧ sizeOfCode 3 = none

/-- R24, R28: a transaction that matches no row of the register map (a reserved offset, a size the row does not allow, a
write to a read-only register, a read of CMD, a misaligned access) has no form, and raises BadAccess. -/
def Obligations.OnlyMappedAlignedAccessesAreDecoded : Prop :=
  ∀ a : Access, (decodeAccess a = .error .noForm ↔ ¬ allowedAccess a) ∧
    (¬ allowedAccess a → ∀ (h : Nat) (s : State), serves s h → hostAccess h a s = .fault (.badAccess a))

/-- Sanity: some words of the spec's encodings, and the instructions they stand for. A descriptor has no data: that the placed
ST.CMD and ST.MSG.H carry data 0 is the model's choice (notes/assumptions/13.md). -/
def Obligations.SpecWordsDecode : Prop :=
  decodeCommand 0x00000001 = .ok .init ∧ decodeCommand 0x00000002 = .ok .compress ∧
  decodeCommand 0x00000383 = .ok (.final 56) ∧ decodeTableWord 16 0x300 = some (.stCmd 0) ∧
  decodeTableWord 16 0x10C = some (.ldCnt 1) ∧ decodeTableWord 16 0x118 = some (.ldDigest 2) ∧
  decodeTableWord 16 0x2C2 = some (.stMsgH 2 0) ∧ decodeTableWord 16 0x045 = some (.ldMsgB 5)

/-! ### The step -/

/-- The next event being a host's transaction that decodes to i, the step is exec of i, on the state without that event and
with that host. -/
def Obligations.StepRunsTheHostsAccess : Prop :=
  ∀ (s : State) (h : Nat) (a : Access) (i : Instr) (rest : List Event),
    s.inputs = .access h a :: rest → serves s h → decodeAccess a = .ok i →
      step s = exec i { s with inputs := rest, host := some h }

/-- With a command pending and no micro-step of it taken, the step at a completion, or at the end of the events, is exec of
the command in PCMD. -/
def Obligations.StepRunsThePendingCommand : Prop :=
  ∀ (s : State) (i : Instr) (rest : List Event), s.busy = true → s.seq = .idle → decodeCommand s.pcmd = .ok i →
    (s.inputs = .complete :: rest → step s = exec i { s with inputs := rest }) ∧
    (s.inputs = [] → step s = exec i s)

/-- A word of the opcode table that decodes, placed, is what the very next step runs. -/
def Obligations.PlacedWordRunsNext : Prop :=
  ∀ (s : State) (nbits w : Nat) (i : Instr), decodeTableWord nbits w = some i →
    step (s.withFetchWord nbits w) =
      exec i (if 16 < nbits then { s with pcmd := BitVec.ofNat 32 w, busy := true, seq := .idle }
        else { s with host := some (s.host.getD 0) })

/-! ### The datapath -/

/-- R41: rotation is circular, bit i goes to bit (i + s) mod 32; and the amounts that occur. -/
def Obligations.RotationIsCircular : Prop :=
  (∀ (x : Word) (s : Nat), 1 ≤ s → s ≤ 31 → ∀ i, i < 32 → (rotl32 x s).getLsbD ((i + s) % 32) = x.getLsbD i) ∧
  (∀ (x : Word) (s : Nat), 1 ≤ s → s ≤ 31 → (rotl32 x s).toNat = (x.toNat * 2 ^ s ||| x.toNat / 2 ^ (32 - s)) % 2 ^ 32) ∧
  (∀ t, t < 48 → (stepRow t).s ∈ [3, 5, 7, 9, 11, 13, 15, 19]) ∧
  (∀ s ∈ [3, 5, 7, 9, 11, 13, 15, 19], ∃ t, t < 48 ∧ (stepRow t).s = s)

/-- R42 to R44, bit by bit: F selects, G is the majority, H the parity. -/
def Obligations.StepFunctionsBitByBit : Prop :=
  ∀ (x y z : Word) (i : Nat), i < 32 →
    (fnF x y z).getLsbD i = (if x.getLsbD i then y.getLsbD i else z.getLsbD i) ∧
    ((fnG x y z).getLsbD i = true ↔
      2 ≤ ([x.getLsbD i, y.getLsbD i, z.getLsbD i].filter id).length) ∧
    ((fnH x y z).getLsbD i = true ↔
      ([x.getLsbD i, y.getLsbD i, z.getLsbD i].filter id).length % 2 = 1)

/-- R51: the 48 rows of the schedule, as the table lists them; f is the round's function. -/
def Obligations.ScheduleIsTheTable : Prop :=
  ((List.range 16).map stepRow =
    [⟨1, 0, 3, 0x00000000, .a, .b, .c, .d⟩, ⟨1, 1, 7, 0x00000000, .d, .a, .b, .c⟩,
     ⟨1, 2, 11, 0x00000000, .c, .d, .a, .b⟩, ⟨1, 3, 19, 0x00000000, .b, .c, .d, .a⟩,
     ⟨1, 4, 3, 0x00000000, .a, .b, .c, .d⟩, ⟨1, 5, 7, 0x00000000, .d, .a, .b, .c⟩,
     ⟨1, 6, 11, 0x00000000, .c, .d, .a, .b⟩, ⟨1, 7, 19, 0x00000000, .b, .c, .d, .a⟩,
     ⟨1, 8, 3, 0x00000000, .a, .b, .c, .d⟩, ⟨1, 9, 7, 0x00000000, .d, .a, .b, .c⟩,
     ⟨1, 10, 11, 0x00000000, .c, .d, .a, .b⟩, ⟨1, 11, 19, 0x00000000, .b, .c, .d, .a⟩,
     ⟨1, 12, 3, 0x00000000, .a, .b, .c, .d⟩, ⟨1, 13, 7, 0x00000000, .d, .a, .b, .c⟩,
     ⟨1, 14, 11, 0x00000000, .c, .d, .a, .b⟩, ⟨1, 15, 19, 0x00000000, .b, .c, .d, .a⟩]) ∧
  ((List.range 16).map (fun j => stepRow (16 + j)) =
    [⟨2, 0, 3, 0x5A827999, .a, .b, .c, .d⟩, ⟨2, 4, 5, 0x5A827999, .d, .a, .b, .c⟩,
     ⟨2, 8, 9, 0x5A827999, .c, .d, .a, .b⟩, ⟨2, 12, 13, 0x5A827999, .b, .c, .d, .a⟩,
     ⟨2, 1, 3, 0x5A827999, .a, .b, .c, .d⟩, ⟨2, 5, 5, 0x5A827999, .d, .a, .b, .c⟩,
     ⟨2, 9, 9, 0x5A827999, .c, .d, .a, .b⟩, ⟨2, 13, 13, 0x5A827999, .b, .c, .d, .a⟩,
     ⟨2, 2, 3, 0x5A827999, .a, .b, .c, .d⟩, ⟨2, 6, 5, 0x5A827999, .d, .a, .b, .c⟩,
     ⟨2, 10, 9, 0x5A827999, .c, .d, .a, .b⟩, ⟨2, 14, 13, 0x5A827999, .b, .c, .d, .a⟩,
     ⟨2, 3, 3, 0x5A827999, .a, .b, .c, .d⟩, ⟨2, 7, 5, 0x5A827999, .d, .a, .b, .c⟩,
     ⟨2, 11, 9, 0x5A827999, .c, .d, .a, .b⟩, ⟨2, 15, 13, 0x5A827999, .b, .c, .d, .a⟩]) ∧
  ((List.range 16).map (fun j => stepRow (32 + j)) =
    [⟨3, 0, 3, 0x6ED9EBA1, .a, .b, .c, .d⟩, ⟨3, 8, 9, 0x6ED9EBA1, .d, .a, .b, .c⟩,
     ⟨3, 4, 11, 0x6ED9EBA1, .c, .d, .a, .b⟩, ⟨3, 12, 15, 0x6ED9EBA1, .b, .c, .d, .a⟩,
     ⟨3, 2, 3, 0x6ED9EBA1, .a, .b, .c, .d⟩, ⟨3, 10, 9, 0x6ED9EBA1, .d, .a, .b, .c⟩,
     ⟨3, 6, 11, 0x6ED9EBA1, .c, .d, .a, .b⟩, ⟨3, 14, 15, 0x6ED9EBA1, .b, .c, .d, .a⟩,
     ⟨3, 1, 3, 0x6ED9EBA1, .a, .b, .c, .d⟩, ⟨3, 9, 9, 0x6ED9EBA1, .d, .a, .b, .c⟩,
     ⟨3, 5, 11, 0x6ED9EBA1, .c, .d, .a, .b⟩, ⟨3, 13, 15, 0x6ED9EBA1, .b, .c, .d, .a⟩,
     ⟨3, 3, 3, 0x6ED9EBA1, .a, .b, .c, .d⟩, ⟨3, 11, 9, 0x6ED9EBA1, .d, .a, .b, .c⟩,
     ⟨3, 7, 11, 0x6ED9EBA1, .c, .d, .a, .b⟩, ⟨3, 15, 15, 0x6ED9EBA1, .b, .c, .d, .a⟩]) ∧
  (∀ x y z : Word, roundFn 1 x y z = fnF x y z ∧ roundFn 2 x y z = fnG x y z ∧ roundFn 3 x y z = fnH x y z)

/-- R46: the three word orders as listed; each is a permutation of 0 to 15; round 2's is column-major and round 3's reverses
the four bits of j. -/
def Obligations.WordOrdersAreTheListedPermutations : Prop :=
  roundOrder 1 = [0, 1, 2, 3, 4, 5, 6, 7, 8, 9, 10, 11, 12, 13, 14, 15] ∧
  roundOrder 2 = [0, 4, 8, 12, 1, 5, 9, 13, 2, 6, 10, 14, 3, 7, 11, 15] ∧
  roundOrder 3 = [0, 8, 4, 12, 2, 10, 6, 14, 1, 9, 5, 13, 3, 11, 7, 15] ∧
  (∀ r ∈ [1, 2, 3], (roundOrder r).Perm (List.range 16)) ∧
  (∀ j, j < 16 → (roundOrder 2).getD j 0 = 4 * (j % 4) + j / 4) ∧
  (∀ j, j < 16 → (roundOrder 3).getD j 0 = 8 * (j % 2) + 4 * (j / 2 % 2) + 2 * (j / 4 % 2) + j / 8) ∧
  (∀ r ∈ [1, 2, 3], ∀ j, j < 16 → (stepRow (16 * (r - 1) + j)).k = (roundOrder r).getD j 0)

/-- R50: step t, step t mod 16 of round t div 16 + 1, takes that round's function, order, shifts and constant and the cycle's
registers, sums four words and rotates the sum into its target; the three other working registers are unchanged. -/
def Obligations.StepWritesOnlyItsTarget : Prop :=
  ∀ (X : List Word) (w : Quad) (t : Nat), t < 48 →
    let row := stepRow t
    let fr := if t < 16 then fnF else if t < 32 then fnG else fnH
    row = ⟨t / 16 + 1, (roundOrder (t / 16 + 1)).getD (t % 16) 0, (roundShift (t / 16 + 1)).getD (t % 16 % 4) 0,
      roundConst (t / 16 + 1), (cycle (t % 16)).1, (cycle (t % 16)).2.1, (cycle (t % 16)).2.2.1, (cycle (t % 16)).2.2.2⟩ ∧
    (stepWork X w t).get row.tgt =
      rotl32 (w.get row.tgt + fr (w.get row.r1) (w.get row.r2) (w.get row.r3) + X.getD row.k 0 + row.const) row.s ∧
    ∀ r : Reg, r ≠ row.tgt → (stepWork X w t).get r = w.get r

/-- R52, R53: a compression starts from the accumulator, takes the 48 steps strictly in order, each on what the one before
it left, and adds the working registers into the accumulator word by word. -/
def Obligations.CompressIsLoadStepsCommit : Prop :=
  ∀ (acc : Quad) (X : List Word),
    runSteps X acc 0 = acc ∧
    (∀ n, runSteps X acc (n + 1) = stepWork X (runSteps X acc n) n) ∧
    (compress acc X).a = acc.a + (runSteps X acc 48).a ∧ (compress acc X).b = acc.b + (runSteps X acc 48).b ∧
    (compress acc X).c = acc.c + (runSteps X acc 48).c ∧ (compress acc X).d = acc.d + (runSteps X acc 48).d

/-- R54: the rotating queue holds the working registers in order after every fourth step, and commits what the 48 steps
commit, for every accumulator and every block. -/
def Obligations.QueueDatapathEqualsCompress : Prop :=
  ∀ (acc : Quad) (X : List Word),
    (∀ k, k ≤ 12 → (List.range (4 * k)).foldl (queueStep X) acc = runSteps X acc (4 * k)) ∧
    compressQueue acc X = compress acc X

/-- R11: word j of the block is the little-endian word of MSG[4j] to MSG[4j+3]. -/
def Obligations.BlockWordsAreLittleEndian : Prop :=
  ∀ (s : State) (bs : List Byte) (j : Nat) (b0 b1 b2 b3 : Byte), s.block = some bs → j < 16 →
    Memory.lookup s.mem (0x40 + 4 * j) = some b0 → Memory.lookup s.mem (0x40 + (4 * j + 1)) = some b1 →
    Memory.lookup s.mem (0x40 + (4 * j + 2)) = some b2 → Memory.lookup s.mem (0x40 + (4 * j + 3)) = some b3 →
      (blockWords bs).getD j 0 =
        (b0.setWidth 32 ||| (b1.setWidth 32 <<< 8) ||| (b2.setWidth 32 <<< 16) ||| (b3.setWidth 32 <<< 24))

/-! ### The commands -/

/-- R55: INIT completes from every state with the IV, CNT = 0 and PHASE = INITED; MSG, VALID and the working registers are
unchanged; its word is 1; it is accepted in every phase, but for a CMD write while BUSY = 1. -/
def Obligations.InitStartsAFreshComputation : Prop :=
  ∀ s : State,
    (∃ t, exec .init s = .next t ∧ t.acc = ⟨0x67452301, 0xEFCDAB89, 0x98BADCFE, 0x10325476⟩ ∧ t.cnt = 0 ∧
      t.phase = .inited ∧ atRest t ∧ t.mem = s.mem ∧ t.work = s.work ∧ sameRun s t) ∧
    decodeCommand 0x00000001 = .ok .init ∧
    (s.busy = false → exec (.stCmd 0x00000001) s = .next { s with pcmd := 0x00000001, busy := true }) ∧
    (s.busy = true → exec (.stCmd 0x00000001) s = .fault (.busyAccess (accessOf (.stCmd 0x00000001))))

/-- R56: COMPRESS with all 64 bytes of MSG written compresses the block into the accumulator and adds 64 to CNT; MSG and VALID
are unchanged. With a byte unwritten it raises UnwrittenMsg, naming the bytes. Its word is 2, accepted in INITED and ACCUM and not
in UNINIT and FINAL. -/
def Obligations.CompressMixesOneBlock : Prop :=
  ∀ s : State,
    (∀ bs, s.block = some bs → ∃ t, exec .compress s = .next t ∧ t.acc = compress s.acc (blockWords bs) ∧
      t.cnt = s.cnt + 64 ∧ t.phase = .accum ∧ atRest t ∧ t.mem = s.mem ∧ sameRun s t) ∧
    ((∃ i, i < 64 ∧ s.valid i = false) → ∃ is, exec .compress s = .fault (.unwrittenMsg (.command s.pcmd) is) ∧
      ∀ j, j ∈ is ↔ j < 64 ∧ s.valid j = false) ∧
    (s.busy = false → s.phase = .uninit ∨ s.phase = .final →
      exec (.stCmd 0x00000002) s = .fault (.badPhase (accessOf (.stCmd 0x00000002)) s.phase)) ∧
    decodeCommand 0x00000002 = .ok .compress ∧
    (s.busy = false → s.phase = .inited ∨ s.phase = .accum →
      exec (.stCmd 0x00000002) s = .next { s with pcmd := 0x00000002, busy := true })

/-- R57 to R59: FINAL n on a written remainder of n bytes. With n ≤ 55 it compresses one block: the remainder, 0x80, zeros, the
length. With n ≥ 56 it compresses two: the remainder, 0x80 and zeros; then zeros and the length. The last block is left in
MSG, all of it VALID; CNT has grown by n. -/
def Obligations.FinalPadsAndCompresses : Prop :=
  ∀ (s : State) (rem : BitVec 6) (tail : List Byte), Memory.load s.mem 0x40 rem.toNat = some tail →
    let n := rem.toNat
    let L := bytesLe64 ((s.cnt + BitVec.ofNat 64 n) <<< 3)
    let one := tail ++ 0x80 :: List.replicate (55 - n) 0x00 ++ L
    let first := tail ++ 0x80 :: List.replicate (63 - n) 0x00
    let second := List.replicate 56 0x00 ++ L
    ∃ t, exec (.final rem) s = .next t ∧
      t.acc = (if n ≤ 55 then compress s.acc (blockWords one)
        else compress (compress s.acc (blockWords first)) (blockWords second)) ∧
      t.block = some (if n ≤ 55 then one else second) ∧ (∀ i, i < 64 → t.valid i = true) ∧
      (∀ a, a < 0x40 ∨ 0x80 ≤ a → Memory.lookup t.mem a = Memory.lookup s.mem a) ∧
      t.cnt = s.cnt + BitVec.ofNat 64 n ∧ t.phase = .final ∧ atRest t ∧ sameRun s t

/-- R57's two faults: a remainder byte never written raises UnwrittenMsg, naming the bytes below n that are not written; in UNINIT
and FINAL the command is not accepted. -/
def Obligations.FinalStopsOnAnUnwrittenRemainder : Prop :=
  ∀ (s : State) (rem : BitVec 6),
    ((∃ i, i < rem.toNat ∧ s.valid i = false) →
      ∃ is, exec (.final rem) s = .fault (.unwrittenMsg (.command s.pcmd) is) ∧
        ∀ j, j ∈ is ↔ j < rem.toNat ∧ s.valid j = false) ∧
    (s.busy = false → s.phase = .uninit ∨ s.phase = .final →
      exec (.stCmd (commandWord rem 0x3)) s = .fault (.badPhase (accessOf (.stCmd (commandWord rem 0x3))) s.phase))

/-- R57, R63: FINAL n reads no byte at index n or above: whatever stands there, the accumulator, CNT and the block left in MSG
are the same. FINAL 0 reads none. -/
def Obligations.FinalReadsOnlyTheRemainder : Prop :=
  ∀ (s t : State) (rem : BitVec 6) (m : Memory),
    (∀ i, i < rem.toNat → Memory.lookup m (0x40 + i) = Memory.lookup s.mem (0x40 + i)) →
    exec (.final rem) s = .next t →
      ∃ t', exec (.final rem) { s with mem := m } = .next t' ∧ t'.acc = t.acc ∧ t'.cnt = t.cnt ∧ t'.block = t.block

/-- R60, R61: the length field is `CNT[60:0] ‖ 000`, written at MSG[56..63] lowest byte first; it is CNT × 8 below 2^61 bytes, and
wraps from there on. -/
def Obligations.LengthFieldIsTheBitCount : Prop :=
  (∀ c : Count, bitLength c = (c.extractLsb' 0 61 ++ 0#3).cast (by decide) ∧
    (bitLength c).toNat = 8 * c.toNat % 2 ^ 64 ∧ (c.toNat < 2 ^ 61 → (bitLength c).toNat = 8 * c.toNat)) ∧
  (∀ (s : State) (i : Nat), i < 8 →
    Memory.lookup (writeLength s).mem (0x40 + (56 + i)) = some ((bitLength s.cnt).extractLsb' (8 * i) 8)) ∧
  bitLength 0x1FFFFFFFFFFFFFFF = 0xFFFFFFFFFFFFFFF8 ∧ bitLength 0x2000000000000000 = 0

/-! ### What each instruction writes -/

/-- R8: INIT sets CNT to 0, COMPRESS adds 64, FINAL adds its remainder length, all modulo 2^64, and no other instruction writes
it; the host reads its two halves. -/
def Obligations.CounterHasThreeWriters : Prop :=
  (∀ (i : Instr) (s t : State), exec i s = .next t →
    t.cnt = match i with
      | .init => 0
      | .compress => s.cnt + 64
      | .final rem => s.cnt + BitVec.ofNat 64 rem.toNat
      | _ => s.cnt) ∧
  (∀ s : State, s.busy = false → s.phase ≠ .uninit →
    exec (.ldCnt 0) s = .next { s with reads := s.cnt.extractLsb' 0 32 :: s.reads } ∧
    exec (.ldCnt 1) s = .next { s with reads := s.cnt.extractLsb' 32 32 :: s.reads })

/-- R9: while the total, CNT and what the instruction adds to it, stays below 2^64 bytes no instruction but INIT makes CNT
smaller, and a full 2^64 bytes bring it to 0. -/
def Obligations.CounterNeverDecreasesBelowTheLimit : Prop :=
  (∀ (i : Instr) (s t : State), i ≠ .init →
    s.cnt.toNat + (match i with
      | .compress => 64
      | .final rem => rem.toNat
      | _ => 0) < 2 ^ 64 →
    exec i s = .next t → s.cnt.toNat ≤ t.cnt.toNat) ∧
  (∀ (s t : State), s.cnt = 0xFFFFFFFFFFFFFFC0 → exec .compress s = .next t → t.cnt = 0)

/-- R13: PHASE's encoding, the phase each command and reset enters, and that a step changes it only where a command completes, or
at reset. -/
def Obligations.PhaseChangesOnlyAtCompletionOrReset : Prop :=
  Phase.uninit.code = 0 ∧ Phase.inited.code = 1 ∧ Phase.accum.code = 2 ∧ Phase.final.code = 3 ∧
  (∀ (i : Instr) (s t : State), exec i s = .next t →
    t.phase = match i with
      | .init => .inited
      | .compress => .accum
      | .final _ => .final
      | _ => s.phase) ∧
  (∀ s : State, s.assertReset.phase = .uninit) ∧
  (∀ s t : State, step s = .next t →
    t.phase = s.phase ∨ (s.busy = true ∧ t.busy = false) ∨ ∃ d rest, s.inputs = .reset d :: rest)

/-- R14: BUSY is 1 from the CMD write that accepts a command until that command completes; reset clears it; no other event
writes it: a step sets it only by a CMD write, and no host access clears it. -/
def Obligations.BusyFollowsTheCommand : Prop :=
  (∀ (i : Instr) (s t : State), exec i s = .next t →
    t.busy = match i with
      | .init => false
      | .compress => false
      | .final _ => false
      | .stCmd _ => true
      | _ => s.busy) ∧
  (∀ s : State, s.assertReset.busy = false) ∧
  (∀ s t : State, step s = .next t → s.busy = false → t.busy = true →
    ∃ h a w rest, s.inputs = .access h a :: rest ∧ decodeAccess a = .ok (.stCmd w) ∧ t.pcmd = w) ∧
  (∀ s t : State, step s = .next t → s.busy = true → t.busy = false → ∀ h a rest, s.inputs ≠ .access h a :: rest)

/-- R22: with no command pending, no step but RESET writes the accumulator, CNT, the working registers, PHASE or the sequencer; and
a host access never does, pending command or not. R33: while a command is pending, no access changes the MSG it reads. -/
def Obligations.OnlyCommandsAndResetWriteTheComputation : Prop :=
  ∀ s t : State, step s = .next t → (∀ d rest, s.inputs ≠ .reset d :: rest) →
    s.busy = false ∨ (∃ h a rest, s.inputs = .access h a :: rest) →
      t.acc = s.acc ∧ t.cnt = s.cnt ∧ t.work = s.work ∧ t.phase = s.phase ∧ t.seq = s.seq ∧
        (s.busy = true → t.mem = s.mem ∧ t.pcmd = s.pcmd)

/-- R22: an access form never writes the accumulator, CNT, the working registers, PHASE or the sequencer; only ST.CMD writes PCMD,
and only the three MSG stores write MSG, each no byte outside those it names. -/
def Obligations.AccessFormsLeaveTheComputation : Prop :=
  ∀ (i : Instr) (s t : State), isCommand i = false → exec i s = .next t →
    t.acc = s.acc ∧ t.cnt = s.cnt ∧ t.work = s.work ∧ t.phase = s.phase ∧ t.seq = s.seq ∧ t.lastPass = s.lastPass ∧
    t.faults = s.faults ∧ t.host = s.host ∧ t.inputs = s.inputs ∧ t.free = s.free ∧
    t.pcmd = (match i with
      | .stCmd w => w
      | _ => s.pcmd) ∧
    ∀ a, (match i with
      | .stMsgB j _ => a ≠ 0x40 + j.toNat
      | .stMsgH j _ => a < 0x40 + j.toNat ∨ 0x40 + j.toNat + 2 ≤ a
      | .stMsgW j _ => a < 0x40 + j.toNat ∨ 0x40 + j.toNat + 4 ≤ a
      | _ => True) → Memory.lookup t.mem a = Memory.lookup s.mem a

/-! ### The access forms -/

/-- R65: ST.CMD, a 4-byte write at offset 0. With BUSY = 1 it faults. With BUSY = 0 a reserved word faults; COMPRESS and FINAL
fault in UNINIT and FINAL; every other word is accepted, which sets PCMD and BUSY and nothing else. -/
def Obligations.StCmdAcceptsOrFaults : Prop :=
  (∀ w : Word, accessOf (.stCmd w) = ⟨true, .word, 0x00, w⟩ ∧ (accessOf (.stCmd w)).desc = 0x300) ∧
  (∀ (w : Word) (s : State), s.busy = true → exec (.stCmd w) s = .fault (.busyAccess (accessOf (.stCmd w)))) ∧
  ∀ (w : Word) (s : State), s.busy = false →
    (reservedWord w → exec (.stCmd w) s = .fault (.reservedCommand w)) ∧
    (¬ reservedWord w → w.toNat % 16 = 2 ∨ w.toNat % 16 = 3 → s.phase = .uninit ∨ s.phase = .final →
      exec (.stCmd w) s = .fault (.badPhase (accessOf (.stCmd w)) s.phase)) ∧
    (¬ reservedWord w → w.toNat % 16 = 1 ∨ s.phase = .inited ∨ s.phase = .accum →
      exec (.stCmd w) s = .next { s with pcmd := w, busy := true })

/-- R15, R67: LD.STATUS answers in every state, BUSY = 1 included, with BUSY in bit 0, PHASE in bits 2:1 and zeros above, and
changes nothing of the engine; after reset it reads 0. It is the one access that is legal while BUSY = 1: every other one faults. -/
def Obligations.StatusReadIsAlwaysLegal : Prop :=
  ∀ s : State,
    exec .ldStatus s = .next { s with reads := s.status :: s.reads } ∧
    s.status.getLsbD 0 = s.busy ∧ s.status.extractLsb' 1 2 = s.phase.code ∧ s.status.extractLsb' 3 29 = 0 ∧
    s.assertReset.status = 0 ∧ (accessOf .ldStatus).desc = 0x104 ∧
    (s.busy = true → ∀ i : Instr, isCommand i = false → i.wellFormed = true → i ≠ .ldStatus →
      exec i s = .fault (.busyAccess (accessOf i)))

/-- R68: LD.CNT, a read at 0x08 or 0x0C, returns the half that h selects; before the first INIT it raises BadPhase. -/
def Obligations.CounterReadAfterInit : Prop :=
  ∀ (h : BitVec 1) (s : State), s.busy = false →
    (s.phase ≠ .uninit → exec (.ldCnt h) s =
      .next { s with reads := (if h = 0 then s.cnt.extractLsb' 0 32 else s.cnt.extractLsb' 32 32) :: s.reads }) ∧
    (s.phase = .uninit → exec (.ldCnt h) s = .fault (.badPhase (accessOf (.ldCnt h)) .uninit)) ∧
    (accessOf (.ldCnt h)).desc &&& 0x3FB = 0x108 ∧ (accessOf (.ldCnt h)).off.toNat = 0x08 + 4 * h.toNat

/-- R69: LD.DIGEST, a read at 0x10 + 4 n, returns word n of A, B, C, D in phase FINAL, and consumes nothing; in any other phase it
raises BadPhase. The digest stays readable until the next INIT or reset: from a coherent state in FINAL, a step that is no RESET and
does not complete a pending INIT leaves PHASE = FINAL and A, B, C, D. -/
def Obligations.DigestReadInFinal : Prop :=
  (∀ s t : State, coherent s = true → s.phase = .final → step s = .next t → (∀ d rest, s.inputs ≠ .reset d :: rest) →
    (s.busy = true → decodeCommand s.pcmd = .ok .init → t.busy = true) → t.phase = .final ∧ t.acc = s.acc) ∧
  ∀ (n : BitVec 2) (s : State), s.busy = false →
    (s.phase = .final → ∃ v, exec (.ldDigest n) s = .next { s with reads := v :: s.reads } ∧
      (n = 0 → v = s.acc.a) ∧ (n = 1 → v = s.acc.b) ∧ (n = 2 → v = s.acc.c) ∧ (n = 3 → v = s.acc.d)) ∧
    (s.phase ≠ .final → exec (.ldDigest n) s = .fault (.badPhase (accessOf (.ldDigest n)) s.phase)) ∧
    (accessOf (.ldDigest n)).desc &&& 0x3F3 = 0x110 ∧ (accessOf (.ldDigest n)).off.toNat = 0x10 + 4 * n.toNat

/-- R70: an aligned store with BUSY = 0, a write at offset 0x40 + i, writes byte b of the data to MSG[i + b] and sets its VALID bit,
in every phase; no other byte and nothing but MSG changes. -/
def Obligations.StoreWritesItsBytes : Prop :=
  (∀ (j : BitVec 6) (v : Word),
    (accessOf (.stMsgB j (v.extractLsb' 0 8))).desc &&& 0x3C0 = 0x240 ∧
    (accessOf (.stMsgB j (v.extractLsb' 0 8))).off.toNat = 0x40 + j.toNat ∧
    (accessOf (.stMsgH j (v.extractLsb' 0 16))).off.toNat = 0x40 + j.toNat ∧
    (accessOf (.stMsgW j v)).off.toNat = 0x40 + j.toNat ∧
    (alignedIndex 2 j = true → (accessOf (.stMsgH j (v.extractLsb' 0 16))).desc &&& 0x3C1 = 0x2C0) ∧
    (alignedIndex 4 j = true → (accessOf (.stMsgW j v)).desc &&& 0x3C3 = 0x340)) ∧
  (∀ (j : BitVec 6) (v : BitVec 8) (s : State), s.busy = false →
    ∃ t, exec (.stMsgB j v) s = .next t ∧ t = { s with mem := t.mem } ∧
      Memory.lookup t.mem (0x40 + j.toNat) = some v ∧
      ∀ a, a ≠ 0x40 + j.toNat → Memory.lookup t.mem a = Memory.lookup s.mem a) ∧
  (∀ (j : BitVec 6) (v : BitVec 16) (s : State), s.busy = false → alignedIndex 2 j = true →
    ∃ t, exec (.stMsgH j v) s = .next t ∧ t = { s with mem := t.mem } ∧
      (∀ b, b < 2 → Memory.lookup t.mem (0x40 + (j.toNat + b)) = some (v.extractLsb' (8 * b) 8)) ∧
      ∀ a, (a < 0x40 + j.toNat ∨ 0x40 + j.toNat + 2 ≤ a) → Memory.lookup t.mem a = Memory.lookup s.mem a) ∧
  (∀ (j : BitVec 6) (v : Word) (s : State), s.busy = false → alignedIndex 4 j = true →
    ∃ t, exec (.stMsgW j v) s = .next t ∧ t = { s with mem := t.mem } ∧
      (∀ b, b < 4 → Memory.lookup t.mem (0x40 + (j.toNat + b)) = some (v.extractLsb' (8 * b) 8)) ∧
      ∀ a, (a < 0x40 + j.toNat ∨ 0x40 + j.toNat + 4 ≤ a) → Memory.lookup t.mem a = Memory.lookup s.mem a)

/-- R71: an aligned load of written bytes with BUSY = 0 returns their little-endian value and changes nothing of the engine. That a
narrow load's value is zero-extended to 32 bits is the model's choice (notes/assumptions/7.md). -/
def Obligations.LoadReturnsItsBytes : Prop :=
  (∀ (j : BitVec 6) (s : State) (b : Byte), s.busy = false → Memory.lookup s.mem (0x40 + j.toNat) = some b →
    exec (.ldMsgB j) s = .next { s with reads := b.setWidth 32 :: s.reads }) ∧
  (∀ (j : BitVec 6) (s : State) (b0 b1 : Byte), s.busy = false → alignedIndex 2 j = true →
    Memory.lookup s.mem (0x40 + j.toNat) = some b0 → Memory.lookup s.mem (0x40 + (j.toNat + 1)) = some b1 →
      exec (.ldMsgH j) s = .next { s with reads := (b1 ++ b0).setWidth 32 :: s.reads }) ∧
  (∀ (j : BitVec 6) (s : State) (b0 b1 b2 b3 : Byte), s.busy = false → alignedIndex 4 j = true →
    Memory.lookup s.mem (0x40 + j.toNat) = some b0 → Memory.lookup s.mem (0x40 + (j.toNat + 1)) = some b1 →
    Memory.lookup s.mem (0x40 + (j.toNat + 2)) = some b2 → Memory.lookup s.mem (0x40 + (j.toNat + 3)) = some b3 →
      exec (.ldMsgW j) s = .next { s with reads := (b3 ++ b2 ++ b1 ++ b0).setWidth 32 :: s.reads })

/-- R71: a load of a byte with VALID = 0 raises UnwrittenMsg, naming the bytes it would have read that are not written. -/
def Obligations.LoadOfAnUnwrittenByteFaults : Prop :=
  ∀ (i : Instr) (j : BitVec 6) (s : State), i = .ldMsgB j ∨ i = .ldMsgH j ∨ i = .ldMsgW j → i.wellFormed = true →
    s.busy = false → (∃ b, b < (accessOf i).size.bytes ∧ s.valid (j.toNat + b) = false) →
      ∃ is, exec i s = .fault (.unwrittenMsg (.access (accessOf i)) is) ∧
        ∀ k, k ∈ is ↔ (j.toNat ≤ k ∧ k < j.toNat + (accessOf i).size.bytes) ∧ s.valid k = false

/-- R27: mixed widths. What a word store writes, a halfword or byte load at the offset of one of its lanes reads back as that
lane; four byte stores at rising offsets make the word whose bytes they are. That a narrow load's value is zero-extended to 32 bits is
the model's choice (notes/assumptions/7.md). -/
def Obligations.MixedWidthLanesAgree : Prop :=
  (∀ (j k : BitVec 6) (v : Word) (s : State) (b : Nat), s.busy = false → alignedIndex 4 j = true → b < 4 →
    k.toNat = j.toNat + b →
      (∃ t, andThen (exec (.stMsgW j v) s) (exec (.ldMsgB k)) = .next t ∧
        t.reads = (v.extractLsb' (8 * b) 8).setWidth 32 :: s.reads) ∧
      (b % 2 = 0 → ∃ t, andThen (exec (.stMsgW j v) s) (exec (.ldMsgH k)) = .next t ∧
        t.reads = (v.extractLsb' (8 * b) 16).setWidth 32 :: s.reads)) ∧
  (∀ (j : BitVec 6) (b0 b1 b2 b3 : Byte) (s : State), s.busy = false → alignedIndex 4 j = true →
    ∃ t, andThen (exec (.stMsgB j b0) s) (fun s1 => andThen (exec (.stMsgB (j + 1) b1) s1) fun s2 =>
      andThen (exec (.stMsgB (j + 2) b2) s2) fun s3 => andThen (exec (.stMsgB (j + 3) b3) s3) (exec (.ldMsgW j))) =
        .next t ∧ t.reads = (b3 ++ b2 ++ b1 ++ b0).setWidth 32 :: s.reads)

/-- R28: a MSG form whose index is not naturally aligned is not performed as some other access: it raises BadAccess. No transaction
decodes to such a form, and that exec of one raises BadAccess before it looks at BUSY is the model's choice
(notes/assumptions/11.md). -/
def Obligations.MisalignedFormsFault : Prop :=
  ∀ (i : Instr) (s : State), i.wellFormed = false → exec i s = .fault (.badAccess (accessOf i))

/-- R84: while BUSY = 1 every access form but LD.STATUS raises BusyAccess. -/
def Obligations.BusyWindowAdmitsOnlyStatus : Prop :=
  ∀ (i : Instr) (s : State), s.busy = true → isCommand i = false → i.wellFormed = true →
    (i = .ldStatus → ∃ t, exec i s = .next t) ∧
    (i ≠ .ldStatus → exec i s = .fault (.busyAccess (accessOf i)))

/-- R29: a read changes nothing of the engine, and read again at once it returns the same value. -/
def Obligations.ReadsHaveNoSideEffects : Prop :=
  ∀ (i : Instr) (s t : State), isCommand i = false → (accessOf i).write = false → exec i s = .next t →
    ∃ v, t = { s with reads := v :: s.reads } ∧ exec i t = .next { s with reads := v :: v :: s.reads }

/-- R77: of a transaction's possible faults the first that applies is reported: BadAccess before BusyAccess, BusyAccess before
ReservedCommand, ReservedCommand before BadPhase, BusyAccess before BadPhase and UnwrittenMsg. -/
def Obligations.FaultsAreReportedInOrder : Prop :=
  ∀ (h : Nat) (a : Access) (s : State), serves s h →
    (¬ allowedAccess a → hostAccess h a s = .fault (.badAccess a)) ∧
    (allowedAccess a → s.busy = true → a.desc ≠ 0x104 → ∃ b, hostAccess h a s = .fault (.busyAccess b) ∧ b.desc = a.desc) ∧
    (a.desc = 0x300 → s.busy = false → reservedWord a.data → hostAccess h a s = .fault (.reservedCommand a.data)) ∧
    (a.desc = 0x300 → s.busy = false → ¬ reservedWord a.data → a.data.toNat % 16 ≠ 1 → s.phase.running = false →
      hostAccess h a s = .fault (.badPhase a s.phase))

/-! ### Completion, the sequencer and progress -/

/-- An accepted command is the one that its completion performs; until then STATUS shows BUSY with the old phase (R15, R66). -/
def Obligations.AcceptedCommandIsPerformed : Prop :=
  ∀ (w : Word) (i : Instr) (s t : State), atRest s → decodeCommand w = .ok i → exec (.stCmd w) s = .next t →
    t.status = (s.phase.code ++ 1#1).setWidth 32 ∧ complete t = exec i t

/-- R66: a completion that ends, ends the command: BUSY = 0 and the sequencer IDLE. With BUSY = 0 it is not enabled; that a
completion listed there does nothing is the model's choice (notes/assumptions/5.md). -/
def Obligations.CompletionEndsTheCommand : Prop :=
  (∀ s t : State, coherent s = true → complete s = .next t → atRest t) ∧
  (∀ s : State, s.busy = false → complete s = .next s)

/-- R86: with BUSY = 1 completion is always enabled, from every micro-state: it ends the command, or reports that a byte the
command reads has never been written, and only that. Where those bytes are written it ends the command. -/
def Obligations.EveryAcceptedCommandCompletes : Prop :=
  ∀ s : State, coherent s = true → s.busy = true →
    ((∃ t, complete s = .next t ∧ atRest t) ∨ (∃ is, complete s = .fault (.unwrittenMsg (.command s.pcmd) is) ∧ is ≠ [])) ∧
    ((∀ i, i < 64 → s.valid i = true) → ∃ t, complete s = .next t ∧ atRest t)

/-- R17, R52, R57: the sequencer's micro-steps, IDLE to the command's end, come to exactly the one transition of the command's
meaning, for every command and every state, its faults included. -/
def Obligations.SequencerRefinesTheCommands : Prop :=
  ∀ (s : State) (i : Instr), s.busy = true → s.seq = .idle → decodeCommand s.pcmd = .ok i →
    runTicks maxTicks s = exec i s

/-- R66, R15: no micro-step short of the command's end is visible to the host: STATUS, the values read, PCMD and FAULT stay, and so
does the observable result of a run that ends there (R88; what it shows with BUSY = 1 is notes/assumptions/14.md). -/
def Obligations.MicroStepsAreInvisible : Prop :=
  ∀ s t : State, tick s = .next t → t.busy = true →
    t.status = s.status ∧ t.pcmd = s.pcmd ∧ sameRun s t ∧ observe t = observe s

/-- R84: a host that keeps the busy window, issuing only STATUS reads from each CMD write until one returns BUSY = 0, meets no
BusyAccess in any run that starts idle with FAULT = 0: whatever is recorded first is another reason. -/
def Obligations.PollingHostMeetsNoBusyAccess : Prop :=
  ∀ (k : Nat) (s t : State), clean s = true → s.busy = false → keepsBusyWindow k false s = true → run k s = some t →
    ∀ a, t.faults.head? ≠ some (.busyAccess a)

/-! ### Reset, faults, hosts and instances -/

/-- R81, R82: RESET, whatever the engine was doing and whatever transaction meets it, leaves PHASE = UNINIT, BUSY = 0, SEQ = IDLE,
every VALID = 0 and FAULT as it was; STATUS then reads 0. -/
def Obligations.ResetWinsFromAnyState : Prop :=
  ∀ (s : State) (during : Option (Nat × Access)) (rest : List Event), s.inputs = .reset during :: rest →
    (∀ h a, during = some (h, a) → serves s h) →
      ∃ t, step s = .next t ∧ t.phase = .uninit ∧ atRest t ∧ (∀ i, t.valid i = false) ∧ t.status = 0 ∧
        t.faults = s.faults ∧ t.inputs = rest

/-- After RESET nothing unspecified can be read: LD.CNT and LD.DIGEST raise BadPhase, every MSG load UnwrittenMsg, COMPRESS and
FINAL are not accepted; INIT is, which sets PCMD and BUSY, and MSG may be stored to (R81, R83). -/
def Obligations.NothingUnspecifiedIsReadAfterReset : Prop :=
  ∀ (s : State) (i : Instr), isCommand i = false → i.wellFormed = true →
    match i with
    | .ldStatus => exec i s.assertReset = .next { s.assertReset with reads := 0 :: s.reads }
    | .ldCnt _ => ∃ a, exec i s.assertReset = .fault (.badPhase a .uninit)
    | .ldDigest _ => ∃ a, exec i s.assertReset = .fault (.badPhase a .uninit)
    | .ldMsgB _ => ∃ a is, exec i s.assertReset = .fault (.unwrittenMsg a is)
    | .ldMsgH _ => ∃ a is, exec i s.assertReset = .fault (.unwrittenMsg a is)
    | .ldMsgW _ => ∃ a is, exec i s.assertReset = .fault (.unwrittenMsg a is)
    | .stCmd w => (w.toNat = 1 → exec i s.assertReset = .next { s.assertReset with pcmd := w, busy := true }) ∧
        (w.toNat ≠ 1 → ∃ f, exec i s.assertReset = .fault f)
    | _ => ∃ t, exec i s.assertReset = .next t

/-- The machine at the start of a run: R81's values, FAULT = 0, and both invariants. -/
def Obligations.ResetStateMeetsTheInvariants : Prop :=
  State.reset.phase = .uninit ∧ State.reset.busy = false ∧ State.reset.seq = .idle ∧ State.reset.status = 0 ∧
  (∀ i, i < 64 → State.reset.valid i = false) ∧ clean State.reset = true ∧
  Memory.wf State.reset.mem = true ∧ coherent State.reset = true

/-- R19, R76: FAULT is sticky, and 0 at the start of a run. A fault raised in a run is recorded after those before it, no step takes a
reason out, neither INIT nor RESET, and the first one stays the first to the run's end. That a run's account goes on after a fault, and
FAULT as an ordered list, are the model's choice (notes/assumptions/4.md). -/
def Obligations.FirstFaultIsKept : Prop :=
  State.reset.faults = [] ∧
  (∀ (s : State) (f : Fault), step s = .fault f → ∃ t, advance s = some t ∧ t.faults = s.faults ++ [f]) ∧
  (∀ s t : State, step s = .next t → t.faults = s.faults) ∧
  (∀ (k : Nat) (s t : State) (f : Fault), run k s = some t → s.faults.head? = some f → t.faults.head? = some f)

/-- R80: a transaction of a second host is refused, whatever it is, and its run with it. An instance's first access, performed or
faulting, binds its host, and no event of a run unbinds it. Remembering the first host is the model's choice (notes/assumptions/8.md),
and so is refusing a second host's transaction that meets RESET (notes/assumptions/12.md). -/
def Obligations.SecondHostIsRefused : Prop :=
  (∀ (s : State) (first h : Nat) (a : Access), s.host = some first → first ≠ h →
    hostAccess h a s = .refused (.secondHost first h) ∧
    resetEvent (some (h, a)) s = .refused (.secondHost first h) ∧
    ∀ rest, s.inputs = .access h a :: rest → advance s = none) ∧
  (∀ (s t : State) (h : Nat) (a : Access) (rest : List Event), s.inputs = .access h a :: rest → advance s = some t →
    t.host = some h) ∧
  (∀ (s t : State) (h : Nat), s.host = some h → advance s = some t → t.host = some h)

/-- R88: a run takes its events in their order and no other event, and k steps take k of them; a fault on the way takes its event
too. That the events to come are a list in the state, and that a run's account goes on after a fault, are the model's choice
(notes/assumptions/5.md and 4.md). -/
def Obligations.RunTakesItsEventsInOrder : Prop :=
  ∀ (k : Nat) (s t : State), k ≤ s.inputs.length → run k s = some t → t.inputs = s.inputs.drop k

/-- R80: instances are independent. A step of instance k leaves every other instance and every window as it is, and what it does
depends on instance k alone. -/
def Obligations.InstancesAreIndependent : Prop :=
  ∀ (k : Nat) (sys sys' : System), stepInstance step k sys = .next sys' →
    sys'.map (·.base) = sys.map (·.base) ∧ (∀ j, j ≠ k → sys'[j]? = sys[j]?) ∧
    (∀ e e', sys[k]? = some e → sys'[k]? = some e' → step e.state = .next e'.state) ∧
    (∀ other : System, other[k]? = sys[k]? → ∃ other', stepInstance step k other = .next other' ∧ other'[k]? = sys'[k]?)

/-- R23: BASE is a multiple of 128; an address has an offset exactly where it lies in the window, the offset is the address less
BASE, and the offset is naturally aligned exactly where the address is. The transaction made there has that offset, and the
direction, size and data of the access. -/
def Obligations.WindowOffsetsKeepAlignment : Prop :=
  ∀ (base : Base) (address : Nat),
    baseAddress base % 128 = 0 ∧
    (windowOffset base address = none ↔ address < baseAddress base ∨ baseAddress base + 128 ≤ address) ∧
    ∀ off, windowOffset base address = some off →
      baseAddress base + off.toNat = address ∧ (∀ sz : Size, off.toNat % sz.bytes = address % sz.bytes) ∧
      ∀ write size data, accessAt base write size address data = some ⟨write, size, off, data⟩

/-- R80, R23: an access at an address reaches the one instance whose window holds it, as a transaction at its offset, behind the events
already to come; every other instance, and every window, stays as it is. An address in no window reaches none. That an instance hears
of its own window's addresses only is the model's choice (notes/assumptions/9.md). -/
def Obligations.AccessReachesTheInstanceOfItsWindow : Prop :=
  ∀ (sys : System) (h : Nat) (write : Bool) (size : Size) (address : Nat) (data : Word), System.wf sys →
    (issue h write size address data sys).map (·.base) = sys.map (·.base) ∧
    (∀ (j : Nat) (e : Engine) (off : BitVec 7), sys[j]? = some e → windowOffset e.base address = some off →
      (issue h write size address data sys)[j]? =
        some { e with state := { e.state with inputs := e.state.inputs ++ [.access h ⟨write, size, off, data⟩] } } ∧
      ∀ l, l ≠ j → (issue h write size address data sys)[l]? = sys[l]?) ∧
    ((∀ e ∈ sys, windowOffset e.base address = none) → issue h write size address data sys = sys)

/-! ### Invariants -/

/-- Every step keeps the block buffer's canonical form: offsets strictly rising, all of them MSG's. -/
def Obligations.StepKeepsTheMemoryForm : Prop :=
  ∀ s t : State, Memory.wf s.mem = true → step s = .next t → Memory.wf t.mem = true

/-- Every step keeps the control invariant: BUSY = 1 only with an acceptable command pending and SEQ one of its micro-states,
BUSY = 0 only with SEQ = IDLE (R14, R16, R17, R65). -/
def Obligations.StepKeepsTheControlInvariant : Prop :=
  ∀ s t : State, coherent s = true → step s = .next t → coherent t = true
end

