-- ==== Sys2Proof/Laws/Decode.lean ====
section
/-! SUPPORT. What the decoders can answer: one inversion lemma each, cited instead of unfolding the chain of rows. -/

namespace Sys2Proof.Laws

/-- The commands a word can decode to (R35). -/
theorem decodeCommand_eq_ok {w : Word} {i : Instr} (h : decodeCommand w = .ok i) :
    i = .init ∨ i = .compress ∨ i = .final (remField w) := by
  unfold decodeCommand at h
  split at h
  · cases h
  · split at h
    · split at h <;> cases h
      exact .inl rfl
    · split at h
      · split at h <;> cases h
        exact .inr (.inl rfl)
      · split at h <;> cases h
        exact .inr (.inr rfl)

/-- The command word as its three fields (R34). -/
theorem word_fields (w : Word) :
    w.toNat = 1024 * (rsvField w).toNat + 16 * (remField w).toNat + (opField w).toNat := by
  simp only [rsvField, remField, opField, BitVec.extractLsb'_toNat, Nat.shiftRight_eq_div_pow]
  have := w.isLt
  omega

/-- A row's condition, as R38 writes it. -/
theorem fits_iff (d : BitVec 10) (r : BusRow) : fits d r = true ↔ d &&& r.2 = r.1 := by
  simp [fits]

/-- A transaction's descriptor does not depend on its data. -/
theorem desc_data (w : Bool) (sz : Size) (off : BitVec 7) (x y : Word) :
    Access.desc ⟨w, sz, off, x⟩ = Access.desc ⟨w, sz, off, y⟩ := rfl

/-- The form a transaction decodes to, with the row its descriptor matches (R38). -/
theorem decodeAccess_eq_ok {a : Access} {i : Instr} (h : decodeAccess a = .ok i) :
    (fits a.desc rowStCmd = true ∧ i = .stCmd a.data) ∨
    (fits a.desc rowLdStatus = true ∧ i = .ldStatus) ∨
    (fits a.desc rowLdCnt = true ∧ i = .ldCnt (a.off.extractLsb' 2 1)) ∨
    (fits a.desc rowLdDigest = true ∧ i = .ldDigest (a.off.extractLsb' 2 2)) ∨
    (fits a.desc rowStMsgB = true ∧ i = .stMsgB (a.off.extractLsb' 0 6) (a.data.extractLsb' 0 8)) ∨
    (fits a.desc rowStMsgH = true ∧ i = .stMsgH (a.off.extractLsb' 0 6) (a.data.extractLsb' 0 16)) ∨
    (fits a.desc rowStMsgW = true ∧ i = .stMsgW (a.off.extractLsb' 0 6) a.data) ∨
    (fits a.desc rowLdMsgB = true ∧ i = .ldMsgB (a.off.extractLsb' 0 6)) ∨
    (fits a.desc rowLdMsgH = true ∧ i = .ldMsgH (a.off.extractLsb' 0 6)) ∨
    (fits a.desc rowLdMsgW = true ∧ i = .ldMsgW (a.off.extractLsb' 0 6)) := by
  rw [decodeAccess] at h
  generalize fits a.desc rowStCmd = f1 at *
  generalize fits a.desc rowLdStatus = f2 at *
  generalize fits a.desc rowLdCnt = f3 at *
  generalize fits a.desc rowLdDigest = f4 at *
  generalize fits a.desc rowStMsgB = f5 at *
  generalize fits a.desc rowStMsgH = f6 at *
  generalize fits a.desc rowStMsgW = f7 at *
  generalize fits a.desc rowLdMsgB = f8 at *
  generalize fits a.desc rowLdMsgH = f9 at *
  generalize fits a.desc rowLdMsgW = f10 at *
  cases f1 with
  | true => cases h; exact .inl ⟨rfl, rfl⟩
  | false =>
  right
  cases f2 with
  | true => cases h; exact .inl ⟨rfl, rfl⟩
  | false =>
  right
  cases f3 with
  | true => cases h; exact .inl ⟨rfl, rfl⟩
  | false =>
  right
  cases f4 with
  | true => cases h; exact .inl ⟨rfl, rfl⟩
  | false =>
  right
  cases f5 with
  | true => cases h; exact .inl ⟨rfl, rfl⟩
  | false =>
  right
  cases f6 with
  | true => cases h; exact .inl ⟨rfl, rfl⟩
  | false =>
  right
  cases f7 with
  | true => cases h; exact .inl ⟨rfl, rfl⟩
  | false =>
  right
  cases f8 with
  | true => cases h; exact .inl ⟨rfl, rfl⟩
  | false =>
  right
  cases f9 with
  | true => cases h; exact .inl ⟨rfl, rfl⟩
  | false =>
  right
  cases f10 with
  | true => cases h; exact ⟨rfl, rfl⟩
  | false => cases h

/-- A transaction decodes exactly where some row of R38 matches its descriptor. -/
theorem decodeAccess_isOk_iff (a : Access) :
    (∃ i, decodeAccess a = .ok i) ↔ busRows.any (fits a.desc) = true := by
  unfold decodeAccess busRows
  simp only [List.any_cons, List.any_nil, Bool.or_false]
  cases fits a.desc rowStCmd <;> cases fits a.desc rowLdStatus <;> cases fits a.desc rowLdCnt <;>
    cases fits a.desc rowLdDigest <;> cases fits a.desc rowStMsgB <;> cases fits a.desc rowStMsgH <;>
    cases fits a.desc rowStMsgW <;> cases fits a.desc rowLdMsgB <;> cases fits a.desc rowLdMsgH <;>
    cases fits a.desc rowLdMsgW <;> simp

/-- A transaction decodes to an access form, never to a command. -/
theorem decodeAccess_not_command {a : Access} {i : Instr} (h : decodeAccess a = .ok i) :
    i ≠ .init ∧ i ≠ .compress ∧ ∀ rem, i ≠ .final rem := by
  rcases decodeAccess_eq_ok h with ⟨_, rfl⟩ | ⟨_, rfl⟩ | ⟨_, rfl⟩ | ⟨_, rfl⟩ | ⟨_, rfl⟩ | ⟨_, rfl⟩ | ⟨_, rfl⟩ |
    ⟨_, rfl⟩ | ⟨_, rfl⟩ | ⟨_, rfl⟩ <;> exact ⟨nofun, nofun, nofun⟩

end Sys2Proof.Laws
end

