-- ==== Sys2Proof/Laws/Memory.lean ====
section
/-! SUPPORT. The block buffer: a read after a write, and the canonical form, which every operation keeps. -/

namespace Sys2Proof.Laws

open Sys2Proof.Machine

@[simp] theorem lookup_nil (a : Nat) : Memory.lookup [] a = none := rfl

@[simp] theorem lookup_insert_self (a : Nat) (b : Byte) (m : Memory) :
    Memory.lookup (Memory.insert a b m) a = some b := by
  induction m with
  | nil => simp [Memory.insert, Memory.lookup]
  | cons c m ih =>
    obtain ⟨k, v⟩ := c
    by_cases hlt : a < k
    · simp [Memory.insert, Memory.lookup, hlt]
    · by_cases he : a = k
      · simp [Memory.insert, Memory.lookup, he]
      · simp [Memory.insert, Memory.lookup, hlt, he, ih, Ne.symm he]

theorem lookup_insert_ne {a x : Nat} (h : x ≠ a) (b : Byte) (m : Memory) :
    Memory.lookup (Memory.insert a b m) x = Memory.lookup m x := by
  induction m with
  | nil => simp [Memory.insert, Memory.lookup, Ne.symm h]
  | cons c m ih =>
    obtain ⟨k, v⟩ := c
    by_cases hlt : a < k
    · simp [Memory.insert, Memory.lookup, hlt, Ne.symm h]
    · by_cases he : a = k
      · subst he; simp [Memory.insert, Memory.lookup, Ne.symm h]
      · simp [Memory.insert, Memory.lookup, hlt, he, ih]

/-- What reading one byte gives after a store: the stored byte inside, what was there outside. -/
theorem lookup_store (m : Memory) (a x : Nat) (bs : List Byte) :
    Memory.lookup (Memory.store m a bs) x =
      if a ≤ x ∧ x < a + bs.length then bs[x - a]? else Memory.lookup m x := by
  induction bs generalizing m a with
  | nil => simp [Memory.store]
  | cons b bs ih =>
    simp only [Memory.store, ih, List.length_cons]
    by_cases hx : x = a
    · subst hx; simp
    · rw [lookup_insert_ne hx]
      by_cases h1 : a + 1 ≤ x ∧ x < a + 1 + bs.length
      · have h2 : a ≤ x ∧ x < a + (bs.length + 1) := by omega
        have h3 : x - a = (x - (a + 1)) + 1 := by omega
        simp [h1, h2, h3]
      · have h2 : ¬(a ≤ x ∧ x < a + (bs.length + 1)) := by omega
        rw [if_neg h1, if_neg h2]

/-- A load gives exactly the bytes it reads, and gives them where every one is written. -/
theorem load_eq_some_iff (m : Memory) (a n : Nat) (bs : List Byte) :
    Memory.load m a n = some bs ↔ bs.length = n ∧ ∀ i, i < n → Memory.lookup m (a + i) = bs[i]? := by
  induction n generalizing a bs with
  | zero => cases bs <;> simp [Memory.load]
  | succ n ih =>
    cases hl : Memory.lookup m a with
    | none =>
      simp only [Memory.load, hl, reduceCtorEq, false_iff]
      rintro ⟨hlen, h⟩
      have h0 := h 0 (by omega)
      rw [Nat.add_zero, hl, eq_comm, List.getElem?_eq_none_iff] at h0
      omega
    | some b =>
      cases bs with
      | nil =>
        cases hr : Memory.load m (a + 1) n <;> simp [Memory.load, hl, hr]
      | cons c cs =>
        have key : Memory.load m a (n + 1) = some (c :: cs) ↔ b = c ∧ Memory.load m (a + 1) n = some cs := by
          cases hr : Memory.load m (a + 1) n <;> simp [Memory.load, hl, hr]
        rw [key, ih]
        constructor
        · rintro ⟨rfl, hlen, h⟩
          refine ⟨by simp [hlen], fun i hi => ?_⟩
          cases i with
          | zero => simpa using hl
          | succ i =>
            have := h i (by omega)
            rw [show a + (i + 1) = a + 1 + i by omega]
            simpa using this
        · rintro ⟨hlen, h⟩
          refine ⟨?_, by simpa using hlen, fun i hi => ?_⟩
          · have := h 0 (by omega); simp [hl] at this; exact this
          · have := h (i + 1) (by omega)
            rw [show a + (i + 1) = a + 1 + i by omega] at this
            simpa using this

theorem load_length {m : Memory} {a n : Nat} {bs : List Byte} (h : Memory.load m a n = some bs) : bs.length = n :=
  ((load_eq_some_iff m a n bs).1 h).1

/-- A load answers exactly where every byte it reads is written. -/
theorem load_isSome_iff (m : Memory) (a n : Nat) :
    (Memory.load m a n).isSome = true ↔ ∀ i, i < n → (Memory.lookup m (a + i)).isSome = true := by
  induction n generalizing a with
  | zero => simp [Memory.load]
  | succ n ih =>
    have key : (Memory.load m a (n + 1)).isSome = true ↔
        (Memory.lookup m a).isSome = true ∧ (Memory.load m (a + 1) n).isSome = true := by
      cases hl : Memory.lookup m a <;> cases hr : Memory.load m (a + 1) n <;> simp [Memory.load, hl, hr]
    rw [key, ih]
    constructor
    · rintro ⟨h0, h⟩ i hi
      cases i with
      | zero => simpa using h0
      | succ i => rw [show a + (i + 1) = a + 1 + i by omega]; exact h i (by omega)
    · intro h
      refine ⟨by simpa using h 0 (by omega), fun i hi => ?_⟩
      rw [show a + 1 + i = a + (i + 1) by omega]; exact h (i + 1) (by omega)

/-- A load depends only on the bytes it reads. -/
theorem load_congr {m m' : Memory} {a n : Nat}
    (h : ∀ i, i < n → Memory.lookup m (a + i) = Memory.lookup m' (a + i)) : Memory.load m a n = Memory.load m' a n := by
  induction n generalizing a with
  | zero => rfl
  | succ n ih =>
    have h0 := h 0 (by omega)
    have hr : Memory.load m (a + 1) n = Memory.load m' (a + 1) n :=
      ih fun i hi => by rw [show a + 1 + i = a + (i + 1) by omega]; exact h (i + 1) (by omega)
    simp only [Nat.add_zero] at h0
    simp only [Memory.load, h0, hr]

/-- The bytes a load finds missing are those it reads that have VALID = 0. -/
theorem mem_unwritten_iff (m : Memory) (i n j : Nat) :
    j ∈ Memory.unwritten m i n ↔ (i ≤ j ∧ j < i + n) ∧ Memory.lookup m (msgBase + j) = none := by
  simp only [Memory.unwritten, List.mem_filter, List.mem_map, List.mem_range, Option.isNone_iff_eq_none]
  constructor
  · rintro ⟨⟨k, hk, rfl⟩, h⟩; exact ⟨by omega, h⟩
  · rintro ⟨⟨h1, h2⟩, h⟩; exact ⟨⟨j - i, by omega, by omega⟩, h⟩

/-! ### The canonical form -/

theorem rising_mono {lo lo' : Nat} {m : Memory} (h : lo' ≤ lo) (hm : Memory.rising lo m = true) :
    Memory.rising lo' m = true := by
  cases m with
  | nil => rfl
  | cons c m =>
    obtain ⟨k, v⟩ := c
    simp only [Memory.rising, Bool.and_eq_true, decide_eq_true_eq] at hm ⊢
    exact ⟨by omega, hm.2⟩

theorem rising_insert {lo a : Nat} (b : Byte) {m : Memory} (ha : lo ≤ a) (hm : Memory.rising lo m = true) :
    Memory.rising lo (Memory.insert a b m) = true := by
  induction m generalizing lo with
  | nil => simp [Memory.insert, Memory.rising, ha]
  | cons c m ih =>
    obtain ⟨k, v⟩ := c
    simp only [Memory.rising, Bool.and_eq_true, decide_eq_true_eq] at hm
    by_cases hlt : a < k
    · simp only [Memory.insert, hlt, if_true, Memory.rising, Bool.and_eq_true, decide_eq_true_eq]
      exact ⟨ha, by omega, hm.2⟩
    · by_cases he : a = k
      · subst he; simp [Memory.insert, Memory.rising, ha, hm.2]
      · simp only [Memory.insert, hlt, he, if_false, Memory.rising, Bool.and_eq_true, decide_eq_true_eq]
        exact ⟨hm.1, ih (by omega) hm.2⟩

theorem wf_insert {a : Nat} (b : Byte) {m : Memory} (h0 : msgBase ≤ a) (h1 : a < msgEnd) (hm : Memory.wf m = true) :
    Memory.wf (Memory.insert a b m) = true := by
  simp only [Memory.wf, Bool.and_eq_true] at hm ⊢
  refine ⟨rising_insert b h0 hm.1, ?_⟩
  have hall := hm.2
  clear hm
  induction m with
  | nil => simp [Memory.insert, h1]
  | cons c m ih =>
    obtain ⟨k, v⟩ := c
    simp only [List.all_cons, Bool.and_eq_true, decide_eq_true_eq] at hall
    by_cases hlt : a < k
    · simpa [Memory.insert, hlt, h1] using hall
    · by_cases he : a = k
      · subst he; simpa [Memory.insert, h1] using hall.2
      · simpa [Memory.insert, hlt, he, hall.1] using ih hall.2

/-- A store inside MSG keeps the canonical form. -/
theorem wf_store {a : Nat} {bs : List Byte} {m : Memory} (h0 : msgBase ≤ a) (h1 : a + bs.length ≤ msgEnd)
    (hm : Memory.wf m = true) : Memory.wf (Memory.store m a bs) = true := by
  induction bs generalizing a m with
  | nil => exact hm
  | cons b bs ih =>
    simp only [List.length_cons] at h1
    exact ih (by omega) (by omega) (wf_insert b h0 (by omega) hm)

@[simp] theorem wf_nil : Memory.wf [] = true := rfl

/-- Replacing every listed byte by another value keeps the canonical form (State.afterFault). -/
theorem wf_map_value (f : Nat → Byte) {m : Memory} (hm : Memory.wf m = true) :
    Memory.wf (m.map fun c => (c.1, f c.1)) = true := by
  have hr : ∀ (m : Memory) (lo : Nat), Memory.rising lo (m.map fun c => (c.1, f c.1)) = Memory.rising lo m := by
    intro m
    induction m with
    | nil => intro lo; rfl
    | cons c m ih => intro lo; simp [Memory.rising, ih]
  simp only [Memory.wf, Bool.and_eq_true, hr, List.all_map] at hm ⊢
  exact hm

theorem reset_memory_wf : Memory.wf State.reset.mem = true := rfl

/-- In the canonical form, equal reads are equal memories: the list is a function of what it holds. -/
theorem rising_lookup_below {lo a : Nat} {m : Memory} (hm : Memory.rising lo m = true) (h : a < lo) :
    Memory.lookup m a = none := by
  induction m generalizing lo with
  | nil => rfl
  | cons c m ih =>
    obtain ⟨k, v⟩ := c
    simp only [Memory.rising, Bool.and_eq_true, decide_eq_true_eq] at hm
    simp only [Memory.lookup, show k ≠ a by omega, if_false]
    exact ih hm.2 (by omega)

end Sys2Proof.Laws
end

