-- ==== Sys2Proof/Laws/State.lean ====
section
/-! SUPPORT. What each update of State leaves in each field: one lemma per field per update, so that no proof unfolds a
record update. Each is true by rfl; the parentheses keep simp from taking the lemma as a definitional step, which the kernel
would have to find again by unfolding the datapath. -/

namespace Sys2Proof.Laws

open Sys2Proof.Machine

/-! ### commit -/

@[simp] theorem commit_acc (s : State) (q : Quad) : (s.commit q).acc = q := (rfl)
@[simp] theorem commit_cnt (s : State) (q : Quad) : (s.commit q).cnt = s.cnt := (rfl)
@[simp] theorem commit_mem (s : State) (q : Quad) : (s.commit q).mem = s.mem := (rfl)
@[simp] theorem commit_work (s : State) (q : Quad) : (s.commit q).work = freeQuad s.free := (rfl)
@[simp] theorem commit_phase (s : State) (q : Quad) : (s.commit q).phase = s.phase := (rfl)
@[simp] theorem commit_busy (s : State) (q : Quad) : (s.commit q).busy = s.busy := (rfl)
@[simp] theorem commit_pcmd (s : State) (q : Quad) : (s.commit q).pcmd = s.pcmd := (rfl)
@[simp] theorem commit_seq (s : State) (q : Quad) : (s.commit q).seq = s.seq := (rfl)
@[simp] theorem commit_lastPass (s : State) (q : Quad) : (s.commit q).lastPass = s.lastPass := (rfl)
@[simp] theorem commit_faults (s : State) (q : Quad) : (s.commit q).faults = s.faults := (rfl)
@[simp] theorem commit_reads (s : State) (q : Quad) : (s.commit q).reads = s.reads := (rfl)
@[simp] theorem commit_host (s : State) (q : Quad) : (s.commit q).host = s.host := (rfl)
@[simp] theorem commit_inputs (s : State) (q : Quad) : (s.commit q).inputs = s.inputs := (rfl)
@[simp] theorem commit_free (s : State) (q : Quad) : (s.commit q).free = s.free + 1 := (rfl)

/-! ### release -/

@[simp] theorem release_acc (s : State) : s.release.acc = s.acc := (rfl)
@[simp] theorem release_cnt (s : State) : s.release.cnt = s.cnt := (rfl)
@[simp] theorem release_mem (s : State) : s.release.mem = s.mem := (rfl)
@[simp] theorem release_work (s : State) : s.release.work = s.work := (rfl)
@[simp] theorem release_phase (s : State) : s.release.phase = s.phase := (rfl)
@[simp] theorem release_busy (s : State) : s.release.busy = false := (rfl)
@[simp] theorem release_pcmd (s : State) : s.release.pcmd = Config.freeWord s.free 4 := (rfl)
@[simp] theorem release_seq (s : State) : s.release.seq = .idle := (rfl)
@[simp] theorem release_lastPass (s : State) : s.release.lastPass = false := (rfl)
@[simp] theorem release_faults (s : State) : s.release.faults = s.faults := (rfl)
@[simp] theorem release_reads (s : State) : s.release.reads = s.reads := (rfl)
@[simp] theorem release_host (s : State) : s.release.host = s.host := (rfl)
@[simp] theorem release_inputs (s : State) : s.release.inputs = s.inputs := (rfl)
@[simp] theorem release_free (s : State) : s.release.free = s.free + 1 := (rfl)

/-! ### accept -/

@[simp] theorem accept_acc (s : State) (cmd : Word) : (s.accept cmd).acc = s.acc := (rfl)
@[simp] theorem accept_cnt (s : State) (cmd : Word) : (s.accept cmd).cnt = s.cnt := (rfl)
@[simp] theorem accept_mem (s : State) (cmd : Word) : (s.accept cmd).mem = s.mem := (rfl)
@[simp] theorem accept_work (s : State) (cmd : Word) : (s.accept cmd).work = s.work := (rfl)
@[simp] theorem accept_phase (s : State) (cmd : Word) : (s.accept cmd).phase = s.phase := (rfl)
@[simp] theorem accept_busy (s : State) (cmd : Word) : (s.accept cmd).busy = true := (rfl)
@[simp] theorem accept_pcmd (s : State) (cmd : Word) : (s.accept cmd).pcmd = cmd := (rfl)
@[simp] theorem accept_seq (s : State) (cmd : Word) : (s.accept cmd).seq = s.seq := (rfl)
@[simp] theorem accept_lastPass (s : State) (cmd : Word) : (s.accept cmd).lastPass = s.lastPass := (rfl)
@[simp] theorem accept_faults (s : State) (cmd : Word) : (s.accept cmd).faults = s.faults := (rfl)
@[simp] theorem accept_reads (s : State) (cmd : Word) : (s.accept cmd).reads = s.reads := (rfl)
@[simp] theorem accept_host (s : State) (cmd : Word) : (s.accept cmd).host = s.host := (rfl)
@[simp] theorem accept_inputs (s : State) (cmd : Word) : (s.accept cmd).inputs = s.inputs := (rfl)
@[simp] theorem accept_free (s : State) (cmd : Word) : (s.accept cmd).free = s.free := (rfl)

/-! ### reply -/

@[simp] theorem reply_acc (s : State) (v : Word) : (s.reply v).acc = s.acc := (rfl)
@[simp] theorem reply_cnt (s : State) (v : Word) : (s.reply v).cnt = s.cnt := (rfl)
@[simp] theorem reply_mem (s : State) (v : Word) : (s.reply v).mem = s.mem := (rfl)
@[simp] theorem reply_work (s : State) (v : Word) : (s.reply v).work = s.work := (rfl)
@[simp] theorem reply_phase (s : State) (v : Word) : (s.reply v).phase = s.phase := (rfl)
@[simp] theorem reply_busy (s : State) (v : Word) : (s.reply v).busy = s.busy := (rfl)
@[simp] theorem reply_pcmd (s : State) (v : Word) : (s.reply v).pcmd = s.pcmd := (rfl)
@[simp] theorem reply_seq (s : State) (v : Word) : (s.reply v).seq = s.seq := (rfl)
@[simp] theorem reply_lastPass (s : State) (v : Word) : (s.reply v).lastPass = s.lastPass := (rfl)
@[simp] theorem reply_faults (s : State) (v : Word) : (s.reply v).faults = s.faults := (rfl)
@[simp] theorem reply_reads (s : State) (v : Word) : (s.reply v).reads = v :: s.reads := (rfl)
@[simp] theorem reply_host (s : State) (v : Word) : (s.reply v).host = s.host := (rfl)
@[simp] theorem reply_inputs (s : State) (v : Word) : (s.reply v).inputs = s.inputs := (rfl)
@[simp] theorem reply_free (s : State) (v : Word) : (s.reply v).free = s.free := (rfl)

/-! ### pop -/

@[simp] theorem pop_acc (s : State) : s.pop.acc = s.acc := (rfl)
@[simp] theorem pop_cnt (s : State) : s.pop.cnt = s.cnt := (rfl)
@[simp] theorem pop_mem (s : State) : s.pop.mem = s.mem := (rfl)
@[simp] theorem pop_work (s : State) : s.pop.work = s.work := (rfl)
@[simp] theorem pop_phase (s : State) : s.pop.phase = s.phase := (rfl)
@[simp] theorem pop_busy (s : State) : s.pop.busy = s.busy := (rfl)
@[simp] theorem pop_pcmd (s : State) : s.pop.pcmd = s.pcmd := (rfl)
@[simp] theorem pop_seq (s : State) : s.pop.seq = s.seq := (rfl)
@[simp] theorem pop_lastPass (s : State) : s.pop.lastPass = s.lastPass := (rfl)
@[simp] theorem pop_faults (s : State) : s.pop.faults = s.faults := (rfl)
@[simp] theorem pop_reads (s : State) : s.pop.reads = s.reads := (rfl)
@[simp] theorem pop_host (s : State) : s.pop.host = s.host := (rfl)
@[simp] theorem pop_inputs (s : State) : s.pop.inputs = s.inputs.tail := (rfl)
@[simp] theorem pop_free (s : State) : s.pop.free = s.free := (rfl)

/-! ### push -/

@[simp] theorem push_acc (s : State) (e : Event) : (s.push e).acc = s.acc := (rfl)
@[simp] theorem push_cnt (s : State) (e : Event) : (s.push e).cnt = s.cnt := (rfl)
@[simp] theorem push_mem (s : State) (e : Event) : (s.push e).mem = s.mem := (rfl)
@[simp] theorem push_work (s : State) (e : Event) : (s.push e).work = s.work := (rfl)
@[simp] theorem push_phase (s : State) (e : Event) : (s.push e).phase = s.phase := (rfl)
@[simp] theorem push_busy (s : State) (e : Event) : (s.push e).busy = s.busy := (rfl)
@[simp] theorem push_pcmd (s : State) (e : Event) : (s.push e).pcmd = s.pcmd := (rfl)
@[simp] theorem push_seq (s : State) (e : Event) : (s.push e).seq = s.seq := (rfl)
@[simp] theorem push_lastPass (s : State) (e : Event) : (s.push e).lastPass = s.lastPass := (rfl)
@[simp] theorem push_faults (s : State) (e : Event) : (s.push e).faults = s.faults := (rfl)
@[simp] theorem push_reads (s : State) (e : Event) : (s.push e).reads = s.reads := (rfl)
@[simp] theorem push_host (s : State) (e : Event) : (s.push e).host = s.host := (rfl)
@[simp] theorem push_inputs (s : State) (e : Event) : (s.push e).inputs = e :: s.inputs := (rfl)
@[simp] theorem push_free (s : State) (e : Event) : (s.push e).free = s.free := (rfl)

/-! ### record -/

@[simp] theorem record_acc (s : State) (f : Fault) : (s.record f).acc = s.acc := (rfl)
@[simp] theorem record_cnt (s : State) (f : Fault) : (s.record f).cnt = s.cnt := (rfl)
@[simp] theorem record_mem (s : State) (f : Fault) : (s.record f).mem = s.mem := (rfl)
@[simp] theorem record_work (s : State) (f : Fault) : (s.record f).work = s.work := (rfl)
@[simp] theorem record_phase (s : State) (f : Fault) : (s.record f).phase = s.phase := (rfl)
@[simp] theorem record_busy (s : State) (f : Fault) : (s.record f).busy = s.busy := (rfl)
@[simp] theorem record_pcmd (s : State) (f : Fault) : (s.record f).pcmd = s.pcmd := (rfl)
@[simp] theorem record_seq (s : State) (f : Fault) : (s.record f).seq = s.seq := (rfl)
@[simp] theorem record_lastPass (s : State) (f : Fault) : (s.record f).lastPass = s.lastPass := (rfl)
@[simp] theorem record_faults (s : State) (f : Fault) : (s.record f).faults = s.faults ++ [f] := (rfl)
@[simp] theorem record_reads (s : State) (f : Fault) : (s.record f).reads = s.reads := (rfl)
@[simp] theorem record_host (s : State) (f : Fault) : (s.record f).host = s.host := (rfl)
@[simp] theorem record_inputs (s : State) (f : Fault) : (s.record f).inputs = s.inputs := (rfl)
@[simp] theorem record_free (s : State) (f : Fault) : (s.record f).free = s.free := (rfl)

/-! ### replyFree -/

@[simp] theorem replyFree_acc (s : State) : s.replyFree.acc = s.acc := (rfl)
@[simp] theorem replyFree_cnt (s : State) : s.replyFree.cnt = s.cnt := (rfl)
@[simp] theorem replyFree_mem (s : State) : s.replyFree.mem = s.mem := (rfl)
@[simp] theorem replyFree_work (s : State) : s.replyFree.work = s.work := (rfl)
@[simp] theorem replyFree_phase (s : State) : s.replyFree.phase = s.phase := (rfl)
@[simp] theorem replyFree_busy (s : State) : s.replyFree.busy = s.busy := (rfl)
@[simp] theorem replyFree_pcmd (s : State) : s.replyFree.pcmd = s.pcmd := (rfl)
@[simp] theorem replyFree_seq (s : State) : s.replyFree.seq = s.seq := (rfl)
@[simp] theorem replyFree_lastPass (s : State) : s.replyFree.lastPass = s.lastPass := (rfl)
@[simp] theorem replyFree_faults (s : State) : s.replyFree.faults = s.faults := (rfl)
@[simp] theorem replyFree_reads (s : State) : s.replyFree.reads = Config.freeWord s.free 9 :: s.reads := (rfl)
@[simp] theorem replyFree_host (s : State) : s.replyFree.host = s.host := (rfl)
@[simp] theorem replyFree_inputs (s : State) : s.replyFree.inputs = s.inputs := (rfl)
@[simp] theorem replyFree_free (s : State) : s.replyFree.free = s.free + 1 := (rfl)

/-! ### assertReset -/

@[simp] theorem assertReset_acc (s : State) : s.assertReset.acc = freeQuad s.free := (rfl)
@[simp] theorem assertReset_cnt (s : State) : s.assertReset.cnt = Config.freeCount s.free := (rfl)
@[simp] theorem assertReset_mem (s : State) : s.assertReset.mem = [] := (rfl)
@[simp] theorem assertReset_work (s : State) : s.assertReset.work = ⟨Config.freeWord s.free 5, Config.freeWord s.free 6, Config.freeWord s.free 7, Config.freeWord s.free 8⟩ := (rfl)
@[simp] theorem assertReset_phase (s : State) : s.assertReset.phase = .uninit := (rfl)
@[simp] theorem assertReset_busy (s : State) : s.assertReset.busy = false := (rfl)
@[simp] theorem assertReset_pcmd (s : State) : s.assertReset.pcmd = Config.freeWord s.free 4 := (rfl)
@[simp] theorem assertReset_seq (s : State) : s.assertReset.seq = .idle := (rfl)
@[simp] theorem assertReset_lastPass (s : State) : s.assertReset.lastPass = false := (rfl)
@[simp] theorem assertReset_faults (s : State) : s.assertReset.faults = s.faults := (rfl)
@[simp] theorem assertReset_reads (s : State) : s.assertReset.reads = s.reads := (rfl)
@[simp] theorem assertReset_host (s : State) : s.assertReset.host = s.host := (rfl)
@[simp] theorem assertReset_inputs (s : State) : s.assertReset.inputs = s.inputs := (rfl)
@[simp] theorem assertReset_free (s : State) : s.assertReset.free = s.free + 1 := (rfl)

/-! ### padMsg -/

@[simp] theorem padMsg_acc (n : Nat) (s : State) : (padMsg n s).acc = s.acc := (rfl)
@[simp] theorem padMsg_cnt (n : Nat) (s : State) : (padMsg n s).cnt = s.cnt + BitVec.ofNat 64 n := (rfl)
@[simp] theorem padMsg_mem (n : Nat) (s : State) : (padMsg n s).mem = Memory.store s.mem (msgBase + n) (0x80 :: List.replicate (63 - n) 0x00) := (rfl)
@[simp] theorem padMsg_work (n : Nat) (s : State) : (padMsg n s).work = s.work := (rfl)
@[simp] theorem padMsg_phase (n : Nat) (s : State) : (padMsg n s).phase = s.phase := (rfl)
@[simp] theorem padMsg_busy (n : Nat) (s : State) : (padMsg n s).busy = s.busy := (rfl)
@[simp] theorem padMsg_pcmd (n : Nat) (s : State) : (padMsg n s).pcmd = s.pcmd := (rfl)
@[simp] theorem padMsg_seq (n : Nat) (s : State) : (padMsg n s).seq = s.seq := (rfl)
@[simp] theorem padMsg_lastPass (n : Nat) (s : State) : (padMsg n s).lastPass = s.lastPass := (rfl)
@[simp] theorem padMsg_faults (n : Nat) (s : State) : (padMsg n s).faults = s.faults := (rfl)
@[simp] theorem padMsg_reads (n : Nat) (s : State) : (padMsg n s).reads = s.reads := (rfl)
@[simp] theorem padMsg_host (n : Nat) (s : State) : (padMsg n s).host = s.host := (rfl)
@[simp] theorem padMsg_inputs (n : Nat) (s : State) : (padMsg n s).inputs = s.inputs := (rfl)
@[simp] theorem padMsg_free (n : Nat) (s : State) : (padMsg n s).free = s.free := (rfl)

/-! ### clearMsg -/

@[simp] theorem clearMsg_acc (s : State) : (clearMsg s).acc = s.acc := by simp only [clearMsg]
@[simp] theorem clearMsg_cnt (s : State) : (clearMsg s).cnt = s.cnt := by simp only [clearMsg]
@[simp] theorem clearMsg_mem (s : State) : (clearMsg s).mem = Memory.store s.mem msgBase (List.replicate 64 0x00) := by simp only [clearMsg]
@[simp] theorem clearMsg_work (s : State) : (clearMsg s).work = s.work := by simp only [clearMsg]
@[simp] theorem clearMsg_phase (s : State) : (clearMsg s).phase = s.phase := by simp only [clearMsg]
@[simp] theorem clearMsg_busy (s : State) : (clearMsg s).busy = s.busy := by simp only [clearMsg]
@[simp] theorem clearMsg_pcmd (s : State) : (clearMsg s).pcmd = s.pcmd := by simp only [clearMsg]
@[simp] theorem clearMsg_seq (s : State) : (clearMsg s).seq = s.seq := by simp only [clearMsg]
@[simp] theorem clearMsg_lastPass (s : State) : (clearMsg s).lastPass = s.lastPass := by simp only [clearMsg]
@[simp] theorem clearMsg_faults (s : State) : (clearMsg s).faults = s.faults := by simp only [clearMsg]
@[simp] theorem clearMsg_reads (s : State) : (clearMsg s).reads = s.reads := by simp only [clearMsg]
@[simp] theorem clearMsg_host (s : State) : (clearMsg s).host = s.host := by simp only [clearMsg]
@[simp] theorem clearMsg_inputs (s : State) : (clearMsg s).inputs = s.inputs := by simp only [clearMsg]
@[simp] theorem clearMsg_free (s : State) : (clearMsg s).free = s.free := by simp only [clearMsg]

/-! ### writeLength -/

@[simp] theorem writeLength_acc (s : State) : (writeLength s).acc = s.acc := (rfl)
@[simp] theorem writeLength_cnt (s : State) : (writeLength s).cnt = s.cnt := (rfl)
@[simp] theorem writeLength_mem (s : State) : (writeLength s).mem = Memory.store s.mem (msgBase + 56) (bytesLe64 (bitLength s.cnt)) := (rfl)
@[simp] theorem writeLength_work (s : State) : (writeLength s).work = s.work := (rfl)
@[simp] theorem writeLength_phase (s : State) : (writeLength s).phase = s.phase := (rfl)
@[simp] theorem writeLength_busy (s : State) : (writeLength s).busy = s.busy := (rfl)
@[simp] theorem writeLength_pcmd (s : State) : (writeLength s).pcmd = s.pcmd := (rfl)
@[simp] theorem writeLength_seq (s : State) : (writeLength s).seq = s.seq := (rfl)
@[simp] theorem writeLength_lastPass (s : State) : (writeLength s).lastPass = s.lastPass := (rfl)
@[simp] theorem writeLength_faults (s : State) : (writeLength s).faults = s.faults := (rfl)
@[simp] theorem writeLength_reads (s : State) : (writeLength s).reads = s.reads := (rfl)
@[simp] theorem writeLength_host (s : State) : (writeLength s).host = s.host := (rfl)
@[simp] theorem writeLength_inputs (s : State) : (writeLength s).inputs = s.inputs := (rfl)
@[simp] theorem writeLength_free (s : State) : (writeLength s).free = s.free := (rfl)

/-! ### endCompress -/

@[simp] theorem endCompress_acc (s : State) : (endCompress s).acc = s.acc := (rfl)
@[simp] theorem endCompress_cnt (s : State) : (endCompress s).cnt = s.cnt + 64 := (rfl)
@[simp] theorem endCompress_mem (s : State) : (endCompress s).mem = s.mem := (rfl)
@[simp] theorem endCompress_work (s : State) : (endCompress s).work = s.work := (rfl)
@[simp] theorem endCompress_phase (s : State) : (endCompress s).phase = .accum := (rfl)
@[simp] theorem endCompress_busy (s : State) : (endCompress s).busy = false := (rfl)
@[simp] theorem endCompress_pcmd (s : State) : (endCompress s).pcmd = Config.freeWord s.free 4 := (rfl)
@[simp] theorem endCompress_seq (s : State) : (endCompress s).seq = .idle := (rfl)
@[simp] theorem endCompress_lastPass (s : State) : (endCompress s).lastPass = false := (rfl)
@[simp] theorem endCompress_faults (s : State) : (endCompress s).faults = s.faults := (rfl)
@[simp] theorem endCompress_reads (s : State) : (endCompress s).reads = s.reads := (rfl)
@[simp] theorem endCompress_host (s : State) : (endCompress s).host = s.host := (rfl)
@[simp] theorem endCompress_inputs (s : State) : (endCompress s).inputs = s.inputs := (rfl)
@[simp] theorem endCompress_free (s : State) : (endCompress s).free = s.free + 1 := (rfl)

/-! ### endFinal -/

@[simp] theorem endFinal_acc (s : State) : (endFinal s).acc = s.acc := (rfl)
@[simp] theorem endFinal_cnt (s : State) : (endFinal s).cnt = s.cnt := (rfl)
@[simp] theorem endFinal_mem (s : State) : (endFinal s).mem = s.mem := (rfl)
@[simp] theorem endFinal_work (s : State) : (endFinal s).work = s.work := (rfl)
@[simp] theorem endFinal_phase (s : State) : (endFinal s).phase = .final := (rfl)
@[simp] theorem endFinal_busy (s : State) : (endFinal s).busy = false := (rfl)
@[simp] theorem endFinal_pcmd (s : State) : (endFinal s).pcmd = Config.freeWord s.free 4 := (rfl)
@[simp] theorem endFinal_seq (s : State) : (endFinal s).seq = .idle := (rfl)
@[simp] theorem endFinal_lastPass (s : State) : (endFinal s).lastPass = false := (rfl)
@[simp] theorem endFinal_faults (s : State) : (endFinal s).faults = s.faults := (rfl)
@[simp] theorem endFinal_reads (s : State) : (endFinal s).reads = s.reads := (rfl)
@[simp] theorem endFinal_host (s : State) : (endFinal s).host = s.host := (rfl)
@[simp] theorem endFinal_inputs (s : State) : (endFinal s).inputs = s.inputs := (rfl)
@[simp] theorem endFinal_free (s : State) : (endFinal s).free = s.free + 1 := (rfl)

/-! ### enter -/

@[simp] theorem enter_acc (s : State) (q : Seq) : (s.enter q).acc = s.acc := (rfl)
@[simp] theorem enter_cnt (s : State) (q : Seq) : (s.enter q).cnt = s.cnt := (rfl)
@[simp] theorem enter_mem (s : State) (q : Seq) : (s.enter q).mem = s.mem := (rfl)
@[simp] theorem enter_work (s : State) (q : Seq) : (s.enter q).work = s.work := (rfl)
@[simp] theorem enter_phase (s : State) (q : Seq) : (s.enter q).phase = s.phase := (rfl)
@[simp] theorem enter_busy (s : State) (q : Seq) : (s.enter q).busy = s.busy := (rfl)
@[simp] theorem enter_pcmd (s : State) (q : Seq) : (s.enter q).pcmd = s.pcmd := (rfl)
@[simp] theorem enter_seq (s : State) (q : Seq) : (s.enter q).seq = q := (rfl)
@[simp] theorem enter_lastPass (s : State) (q : Seq) : (s.enter q).lastPass = s.lastPass := (rfl)
@[simp] theorem enter_faults (s : State) (q : Seq) : (s.enter q).faults = s.faults := (rfl)
@[simp] theorem enter_reads (s : State) (q : Seq) : (s.enter q).reads = s.reads := (rfl)
@[simp] theorem enter_host (s : State) (q : Seq) : (s.enter q).host = s.host := (rfl)
@[simp] theorem enter_inputs (s : State) (q : Seq) : (s.enter q).inputs = s.inputs := (rfl)
@[simp] theorem enter_free (s : State) (q : Seq) : (s.enter q).free = s.free := (rfl)

/-! ### beginPass -/

@[simp] theorem beginPass_acc (s : State) (last : Bool) : (s.beginPass last).acc = s.acc := (rfl)
@[simp] theorem beginPass_cnt (s : State) (last : Bool) : (s.beginPass last).cnt = s.cnt := (rfl)
@[simp] theorem beginPass_mem (s : State) (last : Bool) : (s.beginPass last).mem = s.mem := (rfl)
@[simp] theorem beginPass_work (s : State) (last : Bool) : (s.beginPass last).work = s.work := (rfl)
@[simp] theorem beginPass_phase (s : State) (last : Bool) : (s.beginPass last).phase = s.phase := (rfl)
@[simp] theorem beginPass_busy (s : State) (last : Bool) : (s.beginPass last).busy = s.busy := (rfl)
@[simp] theorem beginPass_pcmd (s : State) (last : Bool) : (s.beginPass last).pcmd = s.pcmd := (rfl)
@[simp] theorem beginPass_seq (s : State) (last : Bool) : (s.beginPass last).seq = .load := (rfl)
@[simp] theorem beginPass_lastPass (s : State) (last : Bool) : (s.beginPass last).lastPass = last := (rfl)
@[simp] theorem beginPass_faults (s : State) (last : Bool) : (s.beginPass last).faults = s.faults := (rfl)
@[simp] theorem beginPass_reads (s : State) (last : Bool) : (s.beginPass last).reads = s.reads := (rfl)
@[simp] theorem beginPass_host (s : State) (last : Bool) : (s.beginPass last).host = s.host := (rfl)
@[simp] theorem beginPass_inputs (s : State) (last : Bool) : (s.beginPass last).inputs = s.inputs := (rfl)
@[simp] theorem beginPass_free (s : State) (last : Bool) : (s.beginPass last).free = s.free := (rfl)

/-! ### tickLoad -/

@[simp] theorem tickLoad_acc (s : State) : (tickLoad s).acc = s.acc := (rfl)
@[simp] theorem tickLoad_cnt (s : State) : (tickLoad s).cnt = s.cnt := (rfl)
@[simp] theorem tickLoad_mem (s : State) : (tickLoad s).mem = s.mem := (rfl)
@[simp] theorem tickLoad_work (s : State) : (tickLoad s).work = s.acc := (rfl)
@[simp] theorem tickLoad_phase (s : State) : (tickLoad s).phase = s.phase := (rfl)
@[simp] theorem tickLoad_busy (s : State) : (tickLoad s).busy = s.busy := (rfl)
@[simp] theorem tickLoad_pcmd (s : State) : (tickLoad s).pcmd = s.pcmd := (rfl)
@[simp] theorem tickLoad_seq (s : State) : (tickLoad s).seq = .step 0 := (rfl)
@[simp] theorem tickLoad_lastPass (s : State) : (tickLoad s).lastPass = s.lastPass := (rfl)
@[simp] theorem tickLoad_faults (s : State) : (tickLoad s).faults = s.faults := (rfl)
@[simp] theorem tickLoad_reads (s : State) : (tickLoad s).reads = s.reads := (rfl)
@[simp] theorem tickLoad_host (s : State) : (tickLoad s).host = s.host := (rfl)
@[simp] theorem tickLoad_inputs (s : State) : (tickLoad s).inputs = s.inputs := (rfl)
@[simp] theorem tickLoad_free (s : State) : (tickLoad s).free = s.free := (rfl)

/-! ### tickLen -/

@[simp] theorem tickLen_acc (s : State) : (tickLen s).acc = s.acc := (rfl)
@[simp] theorem tickLen_cnt (s : State) : (tickLen s).cnt = s.cnt := (rfl)
@[simp] theorem tickLen_mem (s : State) : (tickLen s).mem = (writeLength s).mem := (rfl)
@[simp] theorem tickLen_work (s : State) : (tickLen s).work = s.work := (rfl)
@[simp] theorem tickLen_phase (s : State) : (tickLen s).phase = s.phase := (rfl)
@[simp] theorem tickLen_busy (s : State) : (tickLen s).busy = s.busy := (rfl)
@[simp] theorem tickLen_pcmd (s : State) : (tickLen s).pcmd = s.pcmd := (rfl)
@[simp] theorem tickLen_seq (s : State) : (tickLen s).seq = .load := (rfl)
@[simp] theorem tickLen_lastPass (s : State) : (tickLen s).lastPass = true := (rfl)
@[simp] theorem tickLen_faults (s : State) : (tickLen s).faults = s.faults := (rfl)
@[simp] theorem tickLen_reads (s : State) : (tickLen s).reads = s.reads := (rfl)
@[simp] theorem tickLen_host (s : State) : (tickLen s).host = s.host := (rfl)
@[simp] theorem tickLen_inputs (s : State) : (tickLen s).inputs = s.inputs := (rfl)
@[simp] theorem tickLen_free (s : State) : (tickLen s).free = s.free := (rfl)

/-! ### Equal states -/

/-- Two states are equal where each field is. -/
theorem state_ext {s t : State} (acc : s.acc = t.acc) (cnt : s.cnt = t.cnt) (mem : s.mem = t.mem) (work : s.work = t.work)
    (phase : s.phase = t.phase) (busy : s.busy = t.busy) (pcmd : s.pcmd = t.pcmd) (seq : s.seq = t.seq)
    (lastPass : s.lastPass = t.lastPass) (faults : s.faults = t.faults) (reads : s.reads = t.reads) (host : s.host = t.host)
    (inputs : s.inputs = t.inputs) (free : s.free = t.free) : s = t := by
  cases s; cases t; simp_all

end Sys2Proof.Laws
end

