-- ==== Sys2Proof/Laws/Ops.lean ====
section
/-! SUPPORT. What each shared operation can answer: one lemma per operation, cited instead of unfolding it. -/

namespace Sys2Proof.Laws

open Sys2Proof.Machine

/-! ### Results -/

@[simp] theorem andThen_next (s : State) (k : State → Result) : andThen (.next s) k = k s := rfl
@[simp] theorem andThen_fault (f : Fault) (k : State → Result) : andThen (.fault f) k = .fault f := rfl
@[simp] theorem andThen_refused (r : Refusal) (k : State → Result) : andThen (.refused r) k = .refused r := rfl
@[simp] theorem raise_eq (f : Fault) : raise f = .fault f := rfl

theorem andThen_eq_next {o : Result} {k : State → Result} {t : State} :
    andThen o k = .next t ↔ ∃ s, o = .next s ∧ k s = .next t := by
  cases o <;> simp

theorem andThen_eq_fault {o : Result} {k : State → Result} {f : Fault} :
    andThen o k = .fault f ↔ o = .fault f ∨ ∃ s, o = .next s ∧ k s = .fault f := by
  cases o <;> simp

/-! ### Guards -/

theorem whenIdle_idle {a : Access} {s : State} {k : Result} (h : s.busy = false) : whenIdle a s k = k := by
  simp [whenIdle, h]

theorem whenIdle_busy {a : Access} {s : State} {k : Result} (h : s.busy = true) :
    whenIdle a s k = .fault (.busyAccess a) := by
  simp [whenIdle, h]

theorem whenIdle_eq_next {a : Access} {s t : State} {k : Result} :
    whenIdle a s k = .next t ↔ s.busy = false ∧ k = .next t := by
  cases h : s.busy <;> simp [whenIdle, h]

theorem whenAligned_eq_next {a : Access} {i : BitVec 6} {t : State} {k : Result} :
    whenAligned a i k = .next t ↔ alignedIndex a.size.bytes i = true ∧ k = .next t := by
  cases h : alignedIndex a.size.bytes i <;> simp [whenAligned, h]

theorem whenAligned_true {a : Access} {i : BitVec 6} {k : Result} (h : alignedIndex a.size.bytes i = true) :
    whenAligned a i k = k := by
  simp [whenAligned, h]

theorem whenAligned_false {a : Access} {i : BitVec 6} {k : Result} (h : alignedIndex a.size.bytes i = false) :
    whenAligned a i k = .fault (.badAccess a) := by
  simp [whenAligned, h]

/-- A transaction of the host this instance serves goes on with that host; another host's is refused. -/
theorem claim_serves {h : Nat} {s : State} {k : State → Result} (hs : s.host = none ∨ s.host = some h) :
    claim h s k = k { s with host := some h } := by
  rcases hs with hs | hs
  · simp [claim, hs]
  · have : { s with host := some h } = s := by cases s; simp_all
    simp [claim, hs, this]

theorem claim_eq_next {h : Nat} {s t : State} {k : State → Result} :
    claim h s k = .next t ↔ (s.host = none ∨ s.host = some h) ∧ k { s with host := some h } = .next t := by
  by_cases hs : s.host = none ∨ s.host = some h
  · simp [claim_serves hs, hs]
  · cases hh : s.host with
    | none => simp [hh] at hs
    | some f =>
      have hne : f ≠ h := by simpa [hh] using hs
      simp [claim, hh, hne]

/-! ### MSG -/

/-- All a MSG store can do where it answers: its bytes are stored and nothing else changes. -/
theorem storeMsg_eq_next {a : Access} {i : BitVec 6} {s t : State} :
    storeMsg a i s = .next t ↔ alignedIndex a.size.bytes i = true ∧ s.busy = false ∧
      t = { s with mem := Memory.store s.mem (msgBase + i.toNat) (laneBytes a.size.bytes a.data) } := by
  rw [storeMsg, whenAligned_eq_next, whenIdle_eq_next, Host.Outcome.next.injEq]
  exact ⟨fun ⟨h1, h2, h3⟩ => ⟨h1, h2, h3.symm⟩, fun ⟨h1, h2, h3⟩ => ⟨h1, h2, h3.symm⟩⟩

/-- All a MSG load can do where it answers: the written bytes' value is returned. -/
theorem loadMsg_eq_next {a : Access} {i : BitVec 6} {s t : State} :
    loadMsg a i s = .next t ↔ alignedIndex a.size.bytes i = true ∧ s.busy = false ∧
      ∃ bs, Memory.load s.mem (msgBase + i.toNat) a.size.bytes = some bs ∧ t = s.reply (leValue bs) := by
  rw [loadMsg, whenAligned_eq_next, whenIdle_eq_next]
  cases Memory.load s.mem (msgBase + i.toNat) a.size.bytes with
  | none => simp
  | some bs => simp only [Host.Outcome.next.injEq, Option.some.injEq, exists_eq_left', eq_comm (a := t)]

@[simp] theorem laneBytes_length (n : Nat) (v : Word) : (laneBytes n v).length = n := by simp [laneBytes]

@[simp] theorem bytesLe64_length (v : BitVec 64) : (bytesLe64 v).length = 8 := by simp [bytesLe64]

theorem laneBytes_getElem? {n b : Nat} (v : Word) (h : b < n) :
    (laneBytes n v)[b]? = some (v.extractLsb' (8 * b) 8) := by
  simp [laneBytes, h]

theorem bytesLe64_getElem? {i : Nat} (v : BitVec 64) (h : i < 8) :
    (bytesLe64 v)[i]? = some (v.extractLsb' (8 * i) 8) := by
  simp [bytesLe64, h]

/-- The value of up to three bytes leaves the top byte of a word free. -/
theorem leValue_lt : ∀ bs : List Byte, bs.length ≤ 3 → (leValue bs).toNat < 2 ^ 24 ∧
    (bs.length ≤ 2 → (leValue bs).toNat < 2 ^ 16) ∧ (bs.length ≤ 1 → (leValue bs).toNat < 2 ^ 8) ∧
    (bs.length = 0 → (leValue bs).toNat = 0)
  | [], _ => ⟨by decide, fun _ => by decide, fun _ => by decide, fun _ => rfl⟩
  | b :: bs, h => by
    simp only [List.length_cons] at h ⊢
    obtain ⟨_, h2, h1, h0⟩ := leValue_lt bs (by omega)
    have hb := b.isLt
    have key : (leValue (b :: bs)).toNat = b.toNat ||| (leValue bs).toNat <<< 8 % 2 ^ 32 := by
      rw [leValue, BitVec.toNat_or, BitVec.toNat_shiftLeft, BitVec.toNat_setWidth, Nat.mod_eq_of_lt (a := b.toNat) (by omega)]
    have two := h2 (by omega)
    rw [key, Nat.shiftLeft_eq, Nat.mod_eq_of_lt (by omega)]
    refine ⟨Nat.or_lt_two_pow (by omega) (by omega), fun hl => ?_, fun hl => ?_, fun hl => by omega⟩
    · have := h1 (by omega)
      exact Nat.or_lt_two_pow (by omega) (by omega)
    · have := h0 (by omega)
      exact Nat.or_lt_two_pow (by omega) (by omega)

/-- The little-endian value, as a number: the first byte, and 256 times the rest (R27). -/
theorem leValue_cons_toNat (b : Byte) {bs : List Byte} (h : bs.length ≤ 3) :
    (leValue (b :: bs)).toNat = b.toNat + 256 * (leValue bs).toNat := by
  have hl := (leValue_lt bs h).1
  have hb := b.isLt
  rw [leValue, BitVec.toNat_or, BitVec.toNat_shiftLeft, BitVec.toNat_setWidth, Nat.mod_eq_of_lt (a := b.toNat) (by omega),
    Nat.or_comm, Nat.shiftLeft_eq, Nat.mod_eq_of_lt (a := (leValue bs).toNat * 2 ^ 8) (by omega),
    ← Nat.shiftLeft_eq, ← Nat.shiftLeft_add_eq_or_of_lt hb, Nat.shiftLeft_eq]
  omega

/-- An aligned index leaves room for its bytes inside MSG. -/
theorem alignedIndex_room (sz : Size) {i : BitVec 6} (h : alignedIndex sz.bytes i = true) :
    i.toNat + sz.bytes ≤ 64 := by
  have := i.isLt
  simp only [alignedIndex, beq_iff_eq] at h
  cases sz <;> simp only [Size.bytes] at h ⊢ <;> omega

/-! ### The block -/

/-- MSG after all of it is stored. -/
theorem load_store_whole (m : Memory) {bs : List Byte} (h : bs.length = 64) :
    Memory.load (Memory.store m msgBase bs) msgBase 64 = some bs := by
  rw [load_eq_some_iff]
  refine ⟨h, fun i hi => ?_⟩
  rw [lookup_store, if_pos ⟨by omega, by omega⟩, Nat.add_sub_cancel_left]

/-- MSG after its bytes from n on are stored over a written remainder. -/
theorem load_store_tail {m : Memory} {n : Nat} {front bs : List Byte} (hf : Memory.load m msgBase n = some front)
    (h : n + bs.length = 64) : Memory.load (Memory.store m (msgBase + n) bs) msgBase 64 = some (front ++ bs) := by
  obtain ⟨hlen, hl⟩ := (load_eq_some_iff _ _ _ _).1 hf
  rw [load_eq_some_iff]
  refine ⟨by simp [hlen, h], fun i hi => ?_⟩
  rw [lookup_store]
  by_cases hin : i < n
  · rw [if_neg (by omega), hl i hin, List.getElem?_append_left (by omega)]
  · rw [if_pos ⟨by omega, by omega⟩, List.getElem?_append_right (by omega), hlen]
    congr 1; omega

theorem block_eq (s : State) : s.block = Memory.load s.mem msgBase 64 := rfl

/-- A written block's first n bytes can be loaded. -/
theorem load_take {m : Memory} {n : Nat} {bs : List Byte} (h : Memory.load m msgBase 64 = some bs) (hn : n ≤ 64) :
    Memory.load m msgBase n = some (bs.take n) := by
  obtain ⟨hlen, hl⟩ := (load_eq_some_iff _ _ _ _).1 h
  rw [load_eq_some_iff]
  refine ⟨by simp [hlen, hn], fun i hi => ?_⟩
  rw [hl i (by omega), List.getElem?_take_of_lt hi]

/-- MSG after PAD over a written remainder (R58). -/
theorem padMsg_block {s : State} {n : Nat} {tail : List Byte} (h : Memory.load s.mem msgBase n = some tail) (hn : n < 64) :
    (padMsg n s).block = some (tail ++ 0x80 :: List.replicate (63 - n) 0x00) := by
  rw [block_eq, padMsg_mem]
  exact load_store_tail h (by simp; omega)

theorem clearMsg_block (s : State) : (clearMsg s).block = some (List.replicate 64 0x00) := by
  rw [block_eq, clearMsg_mem]
  exact load_store_whole _ (List.length_replicate ..)

/-- MSG after LEN over a written block (R60). -/
theorem writeLength_block {s : State} {bs : List Byte} (h : s.block = some bs) :
    (writeLength s).block = some (bs.take 56 ++ bytesLe64 (bitLength s.cnt)) := by
  rw [block_eq] at h ⊢
  rw [writeLength_mem]
  exact load_store_tail (load_take h (by omega)) (by simp)

/-! ### Commands -/

/-- All a compression of MSG can do where it answers: the accumulator, and the working registers' unspecified content. -/
theorem compressMsg_eq_next {s t : State} :
    compressMsg s = .next t ↔ ∃ bs, s.block = some bs ∧ t = s.commit (compress s.acc (blockWords bs)) := by
  rw [compressMsg]
  cases s.block with
  | none => simp [raiseUnwritten]
  | some bs => simp only [Host.Outcome.next.injEq, Option.some.injEq, exists_eq_left', eq_comm (a := t)]

theorem compressMsg_of_block {s : State} {bs : List Byte} (h : s.block = some bs) :
    compressMsg s = .next (s.commit (compress s.acc (blockWords bs))) := by
  simp [compressMsg, h]

/-- All FINAL's overflow can do where it answers (R59). -/
theorem overflow_eq_next {n : Nat} {s t : State} :
    overflow n s = .next t ↔ (n < 56 ∧ t = s) ∨
      (56 ≤ n ∧ ∃ bs, s.block = some bs ∧ t = clearMsg (s.commit (compress s.acc (blockWords bs)))) := by
  by_cases h : 56 ≤ n
  · simp only [overflow, h, if_true, andThen_eq_next, compressMsg_eq_next, Host.Outcome.next.injEq]
    constructor
    · rintro ⟨u, ⟨bs, hb, rfl⟩, rfl⟩; exact .inr ⟨trivial, bs, hb, rfl⟩
    · rintro (⟨h', _⟩ | ⟨_, bs, hb, rfl⟩)
      · omega
      · exact ⟨_, ⟨bs, hb, rfl⟩, rfl⟩
  · simp only [overflow, h, if_false, Host.Outcome.next.injEq]
    constructor
    · rintro rfl; exact .inl ⟨by omega, rfl⟩
    · rintro (⟨_, rfl⟩ | ⟨h', _⟩)
      · rfl
      · exact h'.elim

end Sys2Proof.Laws
end

