-- ==== Sys2Proof/Laws/Driver.lean ====
section
/-! SUPPORT. The host side: R62's number of compressions, and what a block's word stores and a tail's byte stores are. -/

namespace Sys2Proof.Laws

open Sys2Proof.Machine

/-- R62: how often the driver's commands call Compress for a message of L bytes. -/
theorem driverCompressions_eq (L : Nat) :
    driverCompressions L = if L % 64 < 56 then L / 64 + 1 else L / 64 + 2 := by
  have h : (BitVec.ofNat 6 (L % 64)).toNat = L % 64 := by simp
  simp only [driverCompressions, compressions, h]
  split <;> split <;> omega

/-- A digest is 16 bytes (R2). -/
theorem digestBytes_length (a b c d : Word) : (digestBytes [a, b, c, d]).length = 16 := by
  simp [digestBytes]

/-- Its text form has 32 characters (R73). -/
theorem hexText_length (bs : List Byte) : (hexText bs).length = 2 * bs.length := by
  rw [hexText, String.length_ofList]
  induction bs with
  | nil => rfl
  | cons b bs ih => rw [List.flatMap_cons, List.length_append, ih]; simp; omega

end Sys2Proof.Laws
end

