-- ==== Sys2Proof/Laws/PerInstr.lean ====
section
/-! SUPPORT. The per-instruction family FixedBits: a well-formed instruction's encoding has, in the bits its row of the opcode
table fixes, the values the row gives (R35, R38). -/

namespace Sys2Proof.Laws.FixedBits

/-- The bits the table numbers, masked by the row's mask, are the row's match. -/
def Statement (i : Instr) : Prop :=
  i.wellFormed = true → (encode i).tableBits &&& i.row.2 = i.row.1

theorem init : Statement (.init) :=
  fun _ => by decide

theorem compress : Statement (.compress) :=
  fun _ => by decide

theorem final (rem : BitVec 6) : Statement (.final rem) := by
  revert rem; unfold Statement; decide

theorem stCmd (word : Word) : Statement (.stCmd word) :=
  fun _ => (by decide : (encode (.stCmd 0)).tableBits &&& (Instr.stCmd 0).row.2 = (Instr.stCmd 0).row.1)

theorem ldStatus : Statement (.ldStatus) :=
  fun _ => by decide

theorem ldCnt (h : BitVec 1) : Statement (.ldCnt h) := by
  revert h; unfold Statement; decide

theorem ldDigest (n : BitVec 2) : Statement (.ldDigest n) := by
  revert n; unfold Statement; decide

theorem stMsgB (j : BitVec 6) (data : BitVec 8) : Statement (.stMsgB j data) := by
  have h : ∀ j : BitVec 6, (Instr.stMsgB j 0).wellFormed = true →
      (encode (.stMsgB j 0)).tableBits &&& (Instr.stMsgB j 0).row.2 = (Instr.stMsgB j 0).row.1 := by decide
  exact h j

theorem stMsgH (j : BitVec 6) (data : BitVec 16) : Statement (.stMsgH j data) := by
  have h : ∀ j : BitVec 6, (Instr.stMsgH j 0).wellFormed = true →
      (encode (.stMsgH j 0)).tableBits &&& (Instr.stMsgH j 0).row.2 = (Instr.stMsgH j 0).row.1 := by decide
  exact h j

theorem stMsgW (j : BitVec 6) (data : Word) : Statement (.stMsgW j data) := by
  have h : ∀ j : BitVec 6, (Instr.stMsgW j 0).wellFormed = true →
      (encode (.stMsgW j 0)).tableBits &&& (Instr.stMsgW j 0).row.2 = (Instr.stMsgW j 0).row.1 := by decide
  exact h j

theorem ldMsgB (j : BitVec 6) : Statement (.ldMsgB j) := by
  revert j; unfold Statement; decide

theorem ldMsgH (j : BitVec 6) : Statement (.ldMsgH j) := by
  revert j; unfold Statement; decide

theorem ldMsgW (j : BitVec 6) : Statement (.ldMsgW j) := by
  revert j; unfold Statement; decide

end Sys2Proof.Laws.FixedBits
end

