-- ==== Sys2Proof/Laws/Runs.lean ====
section
/-! SUPPORT. Runs, systems and windows: what one step of a run's account can be, what a fault leaves, what a run shows while
a command is pending, and where an address lies. -/

namespace Sys2Proof.Laws

open Sys2Proof.Machine Sys2Proof.Safety

/-! ### One step of a run's account -/

/-- The account goes on to the step's next state, or to what the step's fault leaves. -/
theorem advance_eq_some {s t : State} :
    advance s = some t ↔ step s = .next t ∨ ∃ f, step s = .fault f ∧ t = s.afterFault f := by
  unfold advance
  cases step s <;> simp [eq_comm]

/-- A run of k + 1 steps is a step and a run of k. -/
theorem run_succ {k : Nat} {s t : State} : run (k + 1) s = some t ↔ ∃ u, advance s = some u ∧ run k u = some t := by
  simp [run, Option.bind_eq_some_iff]

@[simp] theorem afterFault_faults (s : State) (f : Fault) : (s.afterFault f).faults = s.faults ++ [f] := rfl
@[simp] theorem afterFault_reads (s : State) (f : Fault) : (s.afterFault f).reads = s.reads := rfl
@[simp] theorem afterFault_inputs (s : State) (f : Fault) : (s.afterFault f).inputs = s.inputs.tail := rfl
@[simp] theorem afterFault_host (s : State) (f : Fault) : (s.afterFault f).host = s.boundHost := rfl

/-- A host once bound stays bound. -/
theorem boundHost_of_some {s : State} {h : Nat} (hs : s.host = some h) : s.boundHost = some h := by
  simp [State.boundHost, hs]

/-- An unbound instance's access binds its host. -/
theorem boundHost_of_access {s : State} {h : Nat} {a : Access} {rest : List Event} (hs : s.host = none)
    (hi : s.inputs = .access h a :: rest) : s.boundHost = some h := by
  simp [State.boundHost, hs, hi]

/-- With BUSY = 1 a run's observable result is STATUS, the values read and the first fault reason, and nothing else. -/
theorem observe_of_busy {s t : State} (hs : s.busy = true) (ht : t.busy = true) (hr : t.reads = s.reads)
    (hf : t.faults = s.faults) (hst : t.status = s.status) : observe t = observe s := by
  simp [observe, hs, ht, hr, hf, hst]

/-! ### Windows -/

theorem windowOffset_eq_some {b : Base} {a : Nat} {off : BitVec 7} : windowOffset b a = some off ↔
    baseAddress b ≤ a ∧ a < baseAddress b + 128 ∧ off = BitVec.ofNat 7 (a - baseAddress b) := by
  unfold windowOffset
  split <;> simp_all [eq_comm]

/-- Windows do not overlap: an address lies in one window only. -/
theorem windowOffset_base_unique {b c : Base} {a : Nat} {o p : BitVec 7} (hb : windowOffset b a = some o)
    (hc : windowOffset c a = some p) : b = c := by
  obtain ⟨hb1, hb2, _⟩ := windowOffset_eq_some.1 hb
  obtain ⟨hc1, hc2, _⟩ := windowOffset_eq_some.1 hc
  cases b; cases c
  simp only [baseAddress, Base.mk.injEq] at *
  omega

/-- An engine does not hear of an address outside its window. -/
theorem hear_outside {h : Nat} {write : Bool} {size : Size} {address : Nat} {data : Word} {e : Engine}
    (hn : windowOffset e.base address = none) : Engine.hear h write size address data e = e := by
  simp [Engine.hear, accessAt, hn]

/-- An access moves no window. -/
@[simp] theorem hear_base (h : Nat) (write : Bool) (size : Size) (address : Nat) (data : Word) (e : Engine) :
    (Engine.hear h write size address data e).base = e.base := by
  unfold Engine.hear; split <;> rfl

end Sys2Proof.Laws
end

