-- ==== Sys2Proof/Laws/Sequencer.lean ====
section
/-! SUPPORT. What the sequencer's micro-steps do: one lemma for each micro-state, and the run of a whole compression. -/

namespace Sys2Proof.Laws

open Sys2Proof.Machine

/-- MSG's block depends on MSG alone. -/
theorem block_congr {s t : State} (h : s.mem = t.mem) : s.block = t.block := by
  rw [block_eq, h, block_eq]

/-- A compression is its 48 steps and the addition (R52, R53). -/
theorem compress_eq (acc : Quad) (X : List Word) : compress acc X = acc.add (runSteps X acc 48) := (rfl)

/-! ### One micro-step -/

theorem tick_idle {s : State} (hb : s.busy = true) (hq : s.seq = .idle) : tick s = startCommand s := by
  rw [tick, hb, hq]; exact if_pos rfl

theorem tick_pad {s : State} (hb : s.busy = true) (hq : s.seq = .pad) : tick s = .next (tickPad s) := by
  rw [tick, hb, hq]; exact if_pos rfl

theorem tick_load {s : State} (hb : s.busy = true) (hq : s.seq = .load) : tick s = .next (tickLoad s) := by
  rw [tick, hb, hq]; exact if_pos rfl

theorem tick_step {s : State} {bs : List Byte} {t : Fin 48} (hb : s.busy = true) (hq : s.seq = .step t)
    (hl : s.block = some bs) :
    tick s = .next { s with work := stepWork (blockWords bs) s.work t.val,
                            seq := if h : t.val + 1 < 48 then Seq.step ⟨t.val + 1, h⟩ else Seq.commit } := by
  simp [tick, hb, hq, tickStep, hl]

/-- COMMIT of the first of FINAL's two compressions. -/
theorem tick_commit_first {s : State} (hb : s.busy = true) (hq : s.seq = .commit) (hp : s.lastPass = false) :
    tick s = .next ((clearMsg (s.commit (s.acc.add s.work))).enter .len) := by
  rw [tick, hb, hq]
  simp only [if_true]
  rw [tickCommit, hp]
  simp only [Bool.false_eq_true, if_false]

/-- COMMIT of a command's last compression, which ends the command. -/
theorem tick_commit_last {s : State} (hb : s.busy = true) (hq : s.seq = .commit) (hp : s.lastPass = true) :
    (decodeCommand s.pcmd = .ok .compress → tick s = .next (endCompress (s.commit (s.acc.add s.work)))) ∧
    (∀ rem, decodeCommand s.pcmd = .ok (.final rem) → tick s = .next (endFinal (s.commit (s.acc.add s.work)))) := by
  refine ⟨fun hd => ?_, fun rem hd => ?_⟩ <;>
    · rw [tick, hb, hq]
      simp only [if_true]
      rw [tickCommit, hp]
      simp only [if_true, hd]

theorem tick_len {s : State} (hb : s.busy = true) (hq : s.seq = .len) : tick s = .next (tickLen s) := by
  rw [tick, hb, hq]; exact if_pos rfl

/-! ### Runs of micro-steps -/

theorem runTicks_succ (k : Nat) {s : State} (h : s.busy = true) :
    runTicks (k + 1) s = andThen (tick s) (runTicks k) := by
  simp [runTicks, h]

theorem runTicks_done (k : Nat) {s : State} (h : s.busy = false) : runTicks k s = .next s := by
  cases k <;> simp [runTicks, h]

/-- The steps from STEP(t) to STEP(47), which leave the sequencer at COMMIT. -/
theorem runTicks_steps (n k : Nat) {s : State} {bs : List Byte} {t : Fin 48} (ht : t.val + n = 47) (hb : s.busy = true)
    (hq : s.seq = .step t) (hl : s.block = some bs) :
    runTicks (k + (n + 1)) s = runTicks k
      { s with work := (List.range (n + 1)).foldl (fun w i => stepWork (blockWords bs) w (t.val + i)) s.work,
               seq := .commit } := by
  induction n generalizing k s t with
  | zero =>
    rw [runTicks_succ _ hb, tick_step hb hq hl, andThen_next]
    simp [show ¬ (t.val + 1 < 48) by omega]
  | succ n ih =>
    rw [show k + (n + 1 + 1) = k + (n + 1) + 1 by omega, runTicks_succ _ hb, tick_step hb hq hl, andThen_next]
    have hlt : t.val + 1 < 48 := by omega
    rw [ih k (t := ⟨t.val + 1, hlt⟩) (by simp; omega) (by exact hb) (by simp [hlt]) (by exact hl)]
    congr 2
    rw [List.range_succ_eq_map (n := n + 1)]
    simp only [List.foldl_cons, List.foldl_map]
    congr 1
    funext w i
    congr 1; simp; omega

/-- LOAD and the 48 steps (R52). -/
theorem runTicks_load (k : Nat) {s : State} {bs : List Byte} (hb : s.busy = true) (hq : s.seq = .load)
    (hl : s.block = some bs) :
    runTicks (k + 49) s = runTicks k { s with work := runSteps (blockWords bs) s.acc 48, seq := .commit } := by
  rw [show k + 49 = (k + 48) + 1 by omega, runTicks_succ _ hb, tick_load hb hq, andThen_next,
    runTicks_steps 47 k (s := tickLoad s) (t := 0) (by simp) (by exact hb) rfl (by exact hl)]
  simp [tickLoad, runSteps]

/-- LOAD to the end of a COMPRESS. -/
theorem runTicks_last_compress (k : Nat) {s : State} {bs : List Byte} (hb : s.busy = true) (hq : s.seq = .load)
    (hp : s.lastPass = true) (hl : s.block = some bs) (hd : decodeCommand s.pcmd = .ok .compress) :
    runTicks (k + 50) s = .next (endCompress (s.commit (compress s.acc (blockWords bs)))) := by
  rw [show k + 50 = (k + 1) + 49 by omega, runTicks_load _ hb hq hl, runTicks_succ _ (by exact hb),
    (tick_commit_last (by exact hb) rfl (by exact hp)).1 (by exact hd), andThen_next, runTicks_done _ (by simp)]
  refine congrArg Host.Outcome.next (state_ext ?_ ?_ ?_ ?_ ?_ ?_ ?_ ?_ ?_ ?_ ?_ ?_ ?_ ?_) <;> simp [compress_eq]

/-- LOAD of the last compression to the end of a FINAL. -/
theorem runTicks_last_final (k : Nat) {s : State} {bs : List Byte} {rem : BitVec 6} (hb : s.busy = true)
    (hq : s.seq = .load) (hp : s.lastPass = true) (hl : s.block = some bs) (hd : decodeCommand s.pcmd = .ok (.final rem)) :
    runTicks (k + 50) s = .next (endFinal (s.commit (compress s.acc (blockWords bs)))) := by
  rw [show k + 50 = (k + 1) + 49 by omega, runTicks_load _ hb hq hl, runTicks_succ _ (by exact hb),
    (tick_commit_last (by exact hb) rfl (by exact hp)).2 rem (by exact hd), andThen_next, runTicks_done _ (by simp)]
  refine congrArg Host.Outcome.next (state_ext ?_ ?_ ?_ ?_ ?_ ?_ ?_ ?_ ?_ ?_ ?_ ?_ ?_ ?_) <;> simp [compress_eq]

/-- LOAD of the first of FINAL's two compressions, to LEN (R59). -/
theorem runTicks_first (k : Nat) {s : State} {bs : List Byte} (hb : s.busy = true) (hq : s.seq = .load)
    (hp : s.lastPass = false) (hl : s.block = some bs) :
    runTicks (k + 50) s = runTicks k ((clearMsg (s.commit (compress s.acc (blockWords bs)))).enter .len) := by
  rw [show k + 50 = (k + 1) + 49 by omega, runTicks_load _ hb hq hl, runTicks_succ _ (by exact hb),
    tick_commit_first (by exact hb) rfl (by exact hp), andThen_next]
  refine congrArg (runTicks k) (state_ext ?_ ?_ ?_ ?_ ?_ ?_ ?_ ?_ ?_ ?_ ?_ ?_ ?_ ?_) <;> simp [compress_eq]

/-- LEN to the end of a FINAL. -/
theorem runTicks_len (k : Nat) {s : State} {bs : List Byte} {rem : BitVec 6} (hb : s.busy = true) (hq : s.seq = .len)
    (hl : (writeLength s).block = some bs) (hd : decodeCommand s.pcmd = .ok (.final rem)) :
    runTicks (k + 51) s = .next (endFinal ((writeLength s).commit (compress s.acc (blockWords bs)))) := by
  rw [show k + 51 = (k + 50) + 1 by omega, runTicks_succ _ hb, tick_len hb hq, andThen_next,
    runTicks_last_final k (s := tickLen s) (bs := bs) (rem := rem) (by simpa using hb) (by simp) (by simp)
      ((block_congr (by simp)).trans hl) (by simpa using hd)]
  refine congrArg Host.Outcome.next (state_ext ?_ ?_ ?_ ?_ ?_ ?_ ?_ ?_ ?_ ?_ ?_ ?_ ?_ ?_) <;> simp

end Sys2Proof.Laws
end

