-- ==== Sys2Proof/Tests/Slice0.lean ====
section
/-! SUPPORT. Tests: expected results come from `spec/95_test_vectors.md` (V<n>) or are written out from the rules; then, for
every statement that has hypotheses, a witness that meets them together. -/

namespace Sys2Proof.Tests

open Sys2Proof.Machine Sys2Proof.Safety

/-! ### Small states -/

/-- Idle in a phase, nothing written. -/
def idleIn (p : Phase) : State := { State.reset with phase := p }

/-- Idle in a phase, with bytes written from MSG[0] on. -/
def holding (p : Phase) (bs : List Byte) : State := { idleIn p with mem := Memory.store [] 0x40 bs }

/-- The IV in the accumulator, as after INIT, with bytes written from MSG[0] on. -/
def started (bs : List Byte) : State := { holding .inited bs with acc := iv }

/-- A command word pending. -/
def pending (w : Word) (s : State) : State := { s with pcmd := w, busy := true }

/-- MSG all written. -/
def full : State := started (List.replicate 64 0x61)

/-- Something of the next state, where there is one. -/
def after {α : Type} (o : Result) (f : State → α) : Option α :=
  match o with
  | .next t => some (f t)
  | .fault _ => none
  | .refused _ => none

/-- The fault raised, if any. -/
def faultOf (o : Result) : Option Fault :=
  match o with
  | .fault f => some f
  | .next _ => none
  | .refused _ => none

/-- The value the last read returned. -/
def lastRead (o : Result) : Option Word := after o fun t => t.reads.headD 0

theorem exists_of_after {α : Type} {o : Result} {f : State → α} {v : α} (h : after o f = some v) : ∃ t, o = .next t := by
  cases o with
  | next t => exact ⟨t, rfl⟩
  | fault _ => cases h
  | refused _ => cases h

/-! ### WellFormed: an ill-formed term for each check (ST.MSG.B and LD.MSG.B are aligned at every index) -/

theorem test_wf_stMsgH_odd : (Instr.stMsgH 1 0).wellFormed = false := by decide
theorem test_wf_stMsgW_half : (Instr.stMsgW 2 0).wellFormed = false := by decide
theorem test_wf_ldMsgH_odd : (Instr.ldMsgH 63).wellFormed = false := by decide
theorem test_wf_ldMsgW_half : (Instr.ldMsgW 62).wellFormed = false := by decide
theorem test_wf_bytes : (Instr.stMsgB 63 0).wellFormed = true ∧ (Instr.ldMsgB 63).wellFormed = true := by decide
theorem test_wf_aligned : (Instr.stMsgH 62 0).wellFormed = true ∧ (Instr.ldMsgW 60).wellFormed = true := by decide

/-! ### Decode: words written out bit by bit from R34 (RSV, REM, OP) and R38 (W, SZC, off) -/

theorem test_decode_init : decodeCommand 0b0000000000000000000000_000000_0001 = .ok .init := by decide
theorem test_decode_compress : decodeCommand 0b0000000000000000000000_000000_0010 = .ok .compress := by decide
theorem test_decode_final : decodeCommand 0b0000000000000000000000_110111_0011 = .ok (.final 55) := by decide
/-- V11: the reserved words. -/
theorem test_decode_reserved :
    ([0x00000000, 0x00000004, 0x0000000F, 0x00000011, 0x00000012, 0x00000403, 0x80000001] : List Word).map decodeCommand =
      List.replicate 7 (.error .reservedCommand) := by decide
theorem test_decode_stCmd : decodeTableWord 16 0b1_10_0000000 = some (.stCmd 0) := by decide
theorem test_decode_ldStatus : decodeTableWord 16 0b0_10_0000100 = some .ldStatus := by decide
theorem test_decode_ldCnt : decodeTableWord 16 0b0_10_0001100 = some (.ldCnt 1) := by decide
theorem test_decode_ldDigest : decodeTableWord 16 0b0_10_0011100 = some (.ldDigest 3) := by decide
theorem test_decode_stMsgB : decodeTableWord 16 0b1_00_1111111 = some (.stMsgB 63 0) := by decide
theorem test_decode_stMsgH : decodeTableWord 16 0b1_01_1000010 = some (.stMsgH 2 0) := by decide
theorem test_decode_stMsgW : decodeTableWord 16 0b1_10_1111100 = some (.stMsgW 60 0) := by decide
theorem test_decode_ldMsgB : decodeTableWord 16 0b0_00_1000101 = some (.ldMsgB 5) := by decide
theorem test_decode_ldMsgH : decodeTableWord 16 0b0_01_1111110 = some (.ldMsgH 62) := by decide
theorem test_decode_ldMsgW : decodeTableWord 16 0b0_10_1000100 = some (.ldMsgW 4) := by decide
/-- A transaction's data reaches the operand: the low SZ bytes of it (R23, R70). -/
theorem test_decode_data : decodeAccess ⟨true, .half, 0x42, 0xAABBCCDD⟩ = .ok (.stMsgH 2 0xCCDD) ∧
    decodeAccess ⟨true, .byte, 0x7F, 0xAABBCCDD⟩ = .ok (.stMsgB 63 0xDD) := by decide
/-- V12: transactions that match no form; and SZC = 3, which is no size. -/
theorem test_decode_none : ∀ d ∈ [0x100, 0x304, 0x310, 0x004, 0x120, 0x33C, 0x2C1, 0x342, 0x1C0], decodeTableWord 16 d = none := by
  decide

/-! ### The datapath -/

/-- V2. -/
theorem test_rotl32 : rotl32 0x80000001 3 = 0x0000000C ∧ rotl32 0x12345678 19 = 0xB3C091A2 ∧ rotl32 0x80000000 1 = 1 := by decide
theorem test_fnF : fnF 0xF0F0F0F0 0xAAAAAAAA 0x55555555 = 0xA5A5A5A5 := by decide
theorem test_fnG : fnG 0x0F0F0F0F 0x00FF00FF 0x0000FFFF = 0x000F0FFF := by decide
theorem test_fnH : fnH 0x67452301 0xEFCDAB89 0x98BADCFE = 0x10325476 := by decide
/-- V3. -/
theorem test_schedule_row : stepRow 33 = ⟨3, 8, 9, 0x6ED9EBA1, .d, .a, .b, .c⟩ := by decide
/-- V4, rows 2 and 4. -/
theorem test_compress_zero : compress ⟨0, 0, 0, 0⟩ (blockWords (List.replicate 64 0x00)) =
    ⟨0x33c84836, 0xc19152d1, 0xe762d9df, 0xa20027bd⟩ := by decide +kernel
theorem test_compress_ones : compress ⟨0xffffffff, 0xffffffff, 0xffffffff, 0xffffffff⟩ (blockWords (List.replicate 64 0xFF)) =
    ⟨0x11e8ce1b, 0x510ecd5a, 0x304bdeee, 0x63f79f0a⟩ := by decide +kernel
/-- V5, the row of t = 0. -/
theorem test_step_zero : stepWork (0x80 :: List.replicate 15 0) iv 0 = ⟨0x000003f8, 0xefcdab89, 0x98badcfe, 0x10325476⟩ := by
  decide
/-- V9. -/
theorem test_length : bytesLe64 (bitLength 0x0123456789ABCDEF) = [0x78, 0x6f, 0x5e, 0x4d, 0x3c, 0x2b, 0x1a, 0x09] := by decide

/-! ### One step each -/

/-- V6, from a finished computation. -/
theorem test_init : after (exec .init (pending 1 (holding .final [0x61]))) (fun t => (t.acc, t.cnt, t.status, t.mem)) =
    some (⟨0x67452301, 0xefcdab89, 0x98badcfe, 0x10325476⟩, 0, 2, [(0x40, 0x61)]) := by decide +kernel
/-- V7, the wrap of CNT; MSG stays. -/
theorem test_compress_wraps : after (exec .compress (pending 2 { full with cnt := 0xFFFFFFFFFFFFFFC0 }))
    (fun t => (t.cnt, t.status, t.mem)) = some (0, 4, full.mem) := by decide +kernel
/-- V14: 63 bytes written. -/
theorem test_compress_unwritten : faultOf (exec .compress (pending 2 (started (List.replicate 63 0x61)))) =
    some (.unwrittenMsg (.command 2) [63]) := by decide +kernel
/-- V8, "abc". -/
theorem test_final_abc : after (exec (.final 3) (pending 0x33 (started [0x61, 0x62, 0x63])))
    (fun t => (t.acc, t.status, Memory.load t.mem 0x40 4, Memory.load t.mem 0x78 8)) =
    some (⟨0x7a0148a4, 0x52d821af, 0xe80ac15f, 0x9d72a67a⟩, 6, some [0x61, 0x62, 0x63, 0x80],
      some [0x18, 0, 0, 0, 0, 0, 0, 0]) := by decide +kernel
/-- V8, 56 times "a": two blocks. -/
theorem test_final_two_blocks : after (exec (.final 56) (pending 0x383 (started (List.replicate 56 0x61))))
    (fun t => (t.acc, t.cnt, Memory.load t.mem 0x40 2, Memory.load t.mem 0x78 8)) =
    some (⟨0xe9a9f9d5, 0xa5777025, 0x920b8bf0, 0xadb048f3⟩, 56, some [0, 0], some [0xC0, 0x01, 0, 0, 0, 0, 0, 0]) := by
  decide +kernel
/-- R65's example. -/
theorem test_stCmd : after (exec (.stCmd 0x33) (idleIn .inited)) (fun t => (t.pcmd, t.busy, t.status)) = some (0x33, true, 3) := by
  decide
/-- V14: ReservedCommand before BadPhase. -/
theorem test_stCmd_order : faultOf (exec (.stCmd 0) State.reset) = some (.reservedCommand 0) ∧
    faultOf (exec (.stCmd 2) State.reset) = some (.badPhase ⟨true, .word, 0, 2⟩ .uninit) := by decide
/-- V13: BUSY with the old phase. -/
theorem test_ldStatus : lastRead (exec .ldStatus (pending 3 (idleIn .accum))) = some 5 := by decide
/-- V13. -/
theorem test_ldCnt : lastRead (exec (.ldCnt 0) { idleIn .accum with cnt := 0x0000000100000040 }) = some 0x40 ∧
    lastRead (exec (.ldCnt 1) { idleIn .accum with cnt := 0x0000000100000040 }) = some 1 := by decide
/-- V14. -/
theorem test_ldCnt_uninit : faultOf (exec (.ldCnt 0) State.reset) = some (.badPhase ⟨false, .word, 0x08, 0⟩ .uninit) := by decide
/-- R69: word 2 is C. -/
theorem test_ldDigest : lastRead (exec (.ldDigest 2) { idleIn .final with acc := ⟨1, 2, 3, 4⟩ }) = some 3 := by decide
/-- V14. -/
theorem test_ldDigest_early : faultOf (exec (.ldDigest 0) (idleIn .accum)) = some (.badPhase ⟨false, .word, 0x10, 0⟩ .accum) := by
  decide
/-- MSG[63], the last byte. -/
theorem test_stMsgB : after (exec (.stMsgB 63 0xAB) State.reset) (·.mem) = some [(0x7F, 0xAB)] := by decide
/-- V13: the low byte at the low offset. -/
theorem test_stMsgH : after (exec (.stMsgH 6 0x6463) State.reset) (·.mem) = some [(0x46, 0x63), (0x47, 0x64)] := by decide
/-- R70's example. -/
theorem test_stMsgW : after (exec (.stMsgW 0 0x34333231) State.reset) (·.mem) =
    some [(0x40, 0x31), (0x41, 0x32), (0x42, 0x33), (0x43, 0x34)] := by decide
/-- R71's example, and V14's unwritten byte. -/
theorem test_ldMsgB : lastRead (exec (.ldMsgB 1) (holding .uninit [0x61, 0xAB])) = some 0xAB ∧
    faultOf (exec (.ldMsgB 2) (holding .uninit [0x61, 0xAB])) =
      some (.unwrittenMsg (.access ⟨false, .byte, 0x42, 0⟩) [2]) := by decide
/-- V13: `ld.h 0x42` after the word store. -/
theorem test_ldMsgH : lastRead (exec (.ldMsgH 2) (holding .uninit [0x31, 0x32, 0x33, 0x34])) = some 0x3433 := by decide
/-- R71: a word of which two bytes are written. -/
theorem test_ldMsgW : lastRead (exec (.ldMsgW 0) (holding .final [0x61, 0x62, 0x63, 0x80])) = some 0x80636261 ∧
    faultOf (exec (.ldMsgW 0) (holding .final [0x61, 0x62])) =
      some (.unwrittenMsg (.access ⟨false, .word, 0x40, 0⟩) [2, 3]) := by decide
/-- V14: BadAccess before BusyAccess, BusyAccess before ReservedCommand. -/
theorem test_busy_order : faultOf (hostAccess 0 ⟨false, .byte, 0x00, 0⟩ (pending 1 State.reset)) =
      some (.badAccess ⟨false, .byte, 0x00, 0⟩) ∧
    faultOf (hostAccess 0 ⟨true, .word, 0x00, 0⟩ (pending 1 State.reset)) = some (.busyAccess ⟨true, .word, 0x00, 0⟩) := by decide
/-- P7, the outcome in which INIT has completed: with no STATUS read in between, CNT_LO reads 0; before completion it faults. -/
theorem test_busy_ends_with_init : lastRead (andThen (complete (pending 1 State.reset)) (hostAccess 0 (readWord 0x08))) = some 0 ∧
    faultOf (hostAccess 0 (readWord 0x08) (pending 1 State.reset)) = some (.busyAccess ⟨false, .word, 0x08, 0⟩) := by decide +kernel
/-- R88, R66: with FINAL pending and its block padded, CNT and MSG belong to no observable result yet. -/
theorem test_observe_busy : (observe { pending 0x33 full with seq := .len }).cnt = none ∧
    (observe { pending 0x33 full with seq := .len }).msg = none ∧ (observe full).cnt = some 0 ∧
    (observe full).digest = none := by decide +kernel
/-- R88: a run that ends with its INIT pending; a micro-step is no event of a run. -/
theorem test_outcome_pending : (outcome (command 0 .init)).map (·.status) = some 1 ∧ outcome [.tick] = none := by decide +kernel
/-- R80: the first host's access faults, and the second host's run is refused all the same. -/
theorem test_fault_binds_host : outcome [ldw 1 0x20, ldw 2 0x04] = none ∧
    (outcome [ldw 1 0x20]).map (·.fault) = some (some (.badAccess ⟨false, .word, 0x20, 0⟩)) := by decide +kernel
/-- R72, R39: D from the four values read last, the latest at the head (V1 row 1). -/
theorem test_digestRead : (digestRead [0xc089c0e0, 0xd7593cb7, 0x31e96ad1, 0xe0cfd631, 7]).map (·.take 4) =
    some [0x31, 0xd6, 0xcf, 0xe0] := by decide
/-- R72, R87: each command's poll has a length of its own. -/
theorem test_poll_lengths : (md4 0 (fun j => 3 * j) []).length = (1 + 2) + (1 + 3 + 2 + 4) := by decide +kernel
/-- R74's codes. -/
theorem test_fault_code : (faultOf (exec (.ldMsgB 0) State.reset)).map Fault.code = some 5 := by decide
/-- V15: RESET with COMPRESS pending. -/
theorem test_reset_event : after (step ({ pending 2 full with inputs := [.reset none] })) (fun t => (t.phase, t.status, t.mem)) =
    some (.uninit, 0, []) := by decide
/-- A word of the opcode table runs next, from reset: LD.STATUS reads 0 (V13), INIT completes. -/
theorem test_placed : lastRead (step (State.reset.withFetchWord 16 0x104)) = some 0 ∧
    after (step (State.reset.withFetchWord 32 0x1)) (·.status) = some 2 := by decide +kernel
/-- R73's example, on the empty message's first word. -/
theorem test_hexText : hexText (digestBytes [0xe0cfd631]) = "31d6cfe0" := by decide +kernel
/-- V1a. -/
theorem test_driverCompressions : [0, 55, 56, 63, 64, 65, 119, 120].map driverCompressions = [1, 1, 2, 2, 2, 2, 2, 3] := by decide

/-! ### Witnesses: for each statement with hypotheses, operands and a state that meet them together -/

theorem witness_DecodeOfEncodeIsTheInstruction : (Instr.stMsgW 60 0xFFFFFFFF).wellFormed = true ∧
    (Instr.ldMsgH 62).wellFormed = true := by decide
theorem witness_EncodeOfDecodedCommandIsTheWord : decodeCommand 0x3F3 = .ok (.final 63) := by decide
theorem witness_EncodeOfDecodedAccessIsTheTransaction :
    decodeAccess ⟨true, .half, 0x7E, 0x1234BEEF⟩ = .ok (.stMsgH 62 0xBEEF) := by decide
theorem witness_OpcodeMapIsExact : decodeCommand 0x3F3 = .ok (.final 63) ∧ (0x3F3#32).toNat = 3 + 16 * (63#6).toNat := by decide
theorem witness_ReservedWordsAreRefusedAtTheWrite : reservedWord 0x0 ∧ reservedWord 0x4 ∧ reservedWord 0x400 ∧ reservedWord 0x11 ∧
    State.reset.busy = false := by unfold reservedWord; decide
theorem witness_DescriptorTableDecides : Access.desc ⟨true, .word, 0x00, 0⟩ &&& 0x3FF = 0x300 ∧
    Access.desc ⟨false, .word, 0x04, 0⟩ &&& 0x3FF = 0x104 ∧ Access.desc ⟨false, .word, 0x0C, 0⟩ &&& 0x3FB = 0x108 ∧
    Access.desc ⟨false, .word, 0x1C, 0⟩ &&& 0x3F3 = 0x110 ∧ Access.desc ⟨true, .byte, 0x7F, 0⟩ &&& 0x3C0 = 0x240 ∧
    Access.desc ⟨true, .half, 0x7E, 0⟩ &&& 0x3C1 = 0x2C0 ∧ Access.desc ⟨true, .word, 0x7C, 0⟩ &&& 0x3C3 = 0x340 ∧
    Access.desc ⟨false, .byte, 0x7F, 0⟩ &&& 0x3C0 = 0x040 ∧ Access.desc ⟨false, .half, 0x7E, 0⟩ &&& 0x3C1 = 0x0C0 ∧
    Access.desc ⟨false, .word, 0x7C, 0⟩ &&& 0x3C3 = 0x140 := by decide +kernel
/-- A reserved offset's descriptor matches no row. -/
theorem witness_DescriptorTableDecides_none : ∀ r ∈ busRows, Access.desc ⟨false, .word, 0x20, 0⟩ &&& r.2 ≠ r.1 := by
  have h : busRows.all (fun r => Access.desc ⟨false, .word, 0x20, 0⟩ &&& r.2 != r.1) = true := by decide +kernel
  exact fun r hr => bne_iff_ne.1 (List.all_eq_true.1 h r hr)
theorem witness_OnlyMappedAlignedAccessesAreDecoded : ¬ allowedAccess ⟨false, .word, 0x20, 0⟩ ∧ ¬ allowedAccess ⟨true, .half, 0x41, 0⟩ ∧
    allowedAccess ⟨false, .word, 0x1C, 0⟩ ∧ serves State.reset 0 := by unfold allowedAccess serves; decide
theorem witness_StepRunsTheHostsAccess :
    let s := State.reset.push (.access 7 (readWord 0x04))
    s.inputs = [.access 7 (readWord 0x04)] ∧ serves s 7 ∧ decodeAccess (readWord 0x04) = .ok .ldStatus :=
  ⟨rfl, .inl rfl, by decide⟩
theorem witness_StepRunsThePendingCommand :
    let s := pending 1 State.reset
    s.busy = true ∧ s.seq = .idle ∧ decodeCommand s.pcmd = .ok .init ∧ s.inputs = [] ∧
      (s.push .complete).inputs = [.complete] := by decide
theorem witness_PlacedWordRunsNext : decodeTableWord 16 0x104 = some .ldStatus ∧ decodeTableWord 32 0x33 = some (.final 3) := by decide
/-- The numeric ranges of RotationIsCircular, StepFunctionsBitByBit, WordOrdersAreTheListedPermutations, StepWritesOnlyItsTarget,
QueueDatapathEqualsCompress and LengthFieldIsTheBitCount, at their last values. -/
theorem witness_ranges : (1 ≤ 31 ∧ 31 ≤ 31 ∧ 31 < 32) ∧ (3 ∈ [1, 2, 3] ∧ 15 < 16) ∧ (47 < 48 ∧ Reg.a ≠ (stepRow 47).tgt) ∧ 12 ≤ 12 ∧
    (7 < 8 ∧ (0x1FFFFFFFFFFFFFFF#64).toNat < 2 ^ 61) := by decide
theorem witness_BlockWordsAreLittleEndian : full.block = some (List.replicate 64 0x61) ∧
    Memory.lookup full.mem (0x40 + 4 * 15) = some 0x61 ∧ Memory.lookup full.mem (0x40 + (4 * 15 + 1)) = some 0x61 ∧
    Memory.lookup full.mem (0x40 + (4 * 15 + 2)) = some 0x61 ∧ Memory.lookup full.mem (0x40 + (4 * 15 + 3)) = some 0x61 := by
  decide +kernel
theorem witness_InitStartsAFreshComputation : State.reset.busy = false ∧ (idleIn .final).busy = false ∧
    (pending 2 full).busy = true := by decide
theorem witness_CompressMixesOneBlock : full.block = some (List.replicate 64 0x61) ∧
    (started (List.replicate 63 0x61)).valid 63 = false ∧ (idleIn .uninit).phase = .uninit ∧ (idleIn .final).phase = .final ∧
    (idleIn .final).busy = false ∧ full.busy = false ∧ full.phase = .inited ∧ (idleIn .accum).phase = .accum := by decide +kernel
theorem witness_FinalPadsAndCompresses : Memory.load State.reset.mem 0x40 (0#6).toNat = some [] ∧
    Memory.load full.mem 0x40 (55#6).toNat = some (List.replicate 55 0x61) ∧
    Memory.load full.mem 0x40 (56#6).toNat = some (List.replicate 56 0x61) ∧
    Memory.load full.mem 0x40 (63#6).toNat = some (List.replicate 63 0x61) := by decide +kernel
theorem witness_FinalStopsOnAnUnwrittenRemainder : (2 < (3#6).toNat ∧ (started [0x61, 0x62]).valid 2 = false) ∧
    (idleIn .final).busy = false ∧ (idleIn .uninit).phase = .uninit ∧ (idleIn .final).phase = .final := by decide
theorem witness_FinalReadsOnlyTheRemainder : (∀ i, i < (1#6).toNat →
      Memory.lookup (holding .inited [0x61, 0x62]).mem (0x40 + i) = Memory.lookup (holding .inited [0x61, 0xFF]).mem (0x40 + i)) ∧
    ∃ t, exec (.final 1) (holding .inited [0x61, 0xFF]) = .next t :=
  ⟨by decide, exists_of_after (f := (·.cnt)) (v := 1) (by decide +kernel)⟩
/-- A next state of each of the thirteen instructions, for the statements that speak of `exec i s = .next t`:
CounterHasThreeWriters, and the first clauses of PhaseChangesOnlyAtCompletionOrReset and BusyFollowsTheCommand. -/
theorem witness_every_instruction_answers : (∃ t, exec .init State.reset = .next t) ∧ (∃ t, exec .compress full = .next t) ∧
    (∃ t, exec (.final 63) full = .next t) ∧ (∃ t, exec (.stCmd 0x3F3) full = .next t) ∧
    (∃ t, exec .ldStatus State.reset = .next t) ∧ (∃ t, exec (.ldCnt 1) full = .next t) ∧
    (∃ t, exec (.ldDigest 3) (idleIn .final) = .next t) ∧ (∃ t, exec (.stMsgB 63 0xAB) State.reset = .next t) ∧
    (∃ t, exec (.stMsgH 62 0xAB) State.reset = .next t) ∧ (∃ t, exec (.stMsgW 60 0xAB) State.reset = .next t) ∧
    (∃ t, exec (.ldMsgB 63) full = .next t) ∧ (∃ t, exec (.ldMsgH 62) full = .next t) ∧ (∃ t, exec (.ldMsgW 60) full = .next t) :=
  ⟨exists_of_after (f := (·.phase)) (v := .inited) (by decide +kernel),
   exists_of_after (f := (·.phase)) (v := .accum) (by decide +kernel),
   exists_of_after (f := (·.phase)) (v := .final) (by decide +kernel),
   exists_of_after (f := (·.busy)) (v := true) (by decide +kernel),
   exists_of_after (f := (·.busy)) (v := false) (by decide +kernel),
   exists_of_after (f := (·.busy)) (v := false) (by decide +kernel),
   exists_of_after (f := (·.busy)) (v := false) (by decide +kernel),
   exists_of_after (f := (·.busy)) (v := false) (by decide +kernel),
   exists_of_after (f := (·.busy)) (v := false) (by decide +kernel),
   exists_of_after (f := (·.busy)) (v := false) (by decide +kernel),
   exists_of_after (f := (·.busy)) (v := false) (by decide +kernel),
   exists_of_after (f := (·.busy)) (v := false) (by decide +kernel),
   exists_of_after (f := (·.busy)) (v := false) (by decide +kernel)⟩
theorem witness_CounterHasThreeWriters : full.busy = false ∧ full.phase ≠ .uninit := by decide
theorem witness_PhaseChangesOnlyAtCompletionOrReset : ∃ t, step (pending 1 State.reset) = .next t :=
  exists_of_after (f := (·.phase)) (v := .inited) (by decide +kernel)
theorem witness_BusyFollowsTheCommand :
    (∃ t, step (full.push (.access 0 ⟨true, .word, 0x00, 2⟩)) = .next t ∧ t.busy = true) ∧
    (∃ t, step (pending 1 State.reset) = .next t ∧ t.busy = false) := ⟨⟨_, rfl, rfl⟩, ⟨_, rfl, rfl⟩⟩
theorem witness_OnlyCommandsAndResetWriteTheComputation :
    ((∃ t, step State.reset = .next t) ∧ (∀ d rest, State.reset.inputs ≠ .reset d :: rest) ∧ State.reset.busy = false) ∧
    (let s := (pending 2 full).push (.access 0 (readWord 0x04))
     (∃ t, step s = .next t) ∧ (∀ d rest, s.inputs ≠ .reset d :: rest) ∧ ∃ h a rest, s.inputs = .access h a :: rest) :=
  ⟨⟨⟨_, rfl⟩, nofun, rfl⟩, ⟨_, rfl⟩, nofun, _, _, _, rfl⟩
/-- COMPRESS at CNT = 0, and FINAL 63 at CNT = 2^64 - 64, whose total is 2^64 - 1. -/
theorem witness_CounterNeverDecreasesBelowTheLimit : (Instr.compress ≠ .init ∧ full.cnt.toNat + 64 < 2 ^ 64 ∧
      ∃ t, exec .compress full = .next t) ∧
    (Instr.final 63 ≠ .init ∧ (0xFFFFFFFFFFFFFFC0#64).toNat + (63#6).toNat < 2 ^ 64 ∧
      ∃ t, exec (.final 63) { full with cnt := 0xFFFFFFFFFFFFFFC0 } = .next t) ∧
    (∃ t, exec .compress { full with cnt := 0xFFFFFFFFFFFFFFC0 } = .next t) :=
  ⟨⟨by decide, by decide, exists_of_after (f := (·.cnt)) (v := 64) (by decide +kernel)⟩,
   ⟨by decide, by decide, exists_of_after (f := (·.cnt)) (v := 0xFFFFFFFFFFFFFFFF) (by decide +kernel)⟩,
   exists_of_after (f := (·.cnt)) (v := 0) (by decide +kernel)⟩
theorem witness_AccessFormsLeaveTheComputation : isCommand (.stMsgW 60 1) = false ∧ (∃ t, exec (.stMsgW 60 1) full = .next t) ∧
    isCommand (.stCmd 1) = false ∧ (∃ t, exec (.stCmd 1) full = .next t) :=
  ⟨rfl, exists_of_after (f := (·.busy)) (v := false) (by decide +kernel), rfl,
   exists_of_after (f := (·.busy)) (v := true) (by decide +kernel)⟩
theorem witness_StCmdAcceptsOrFaults : (pending 2 full).busy = true ∧ full.busy = false ∧ reservedWord 0xF ∧
    (¬ reservedWord 0x3F3 ∧ (0x3F3#32).toNat % 16 = 3 ∧ (idleIn .uninit).phase = .uninit) ∧
    (¬ reservedWord 0x2 ∧ (0x2#32).toNat % 16 = 2 ∧ full.phase = .inited) ∧ (¬ reservedWord 0x1 ∧ (0x1#32).toNat % 16 = 1) := by
  unfold reservedWord; decide
theorem witness_StatusReadIsAlwaysLegal : (pending 1 State.reset).busy = true ∧ isCommand (.stMsgW 60 1) = false ∧
    (Instr.stMsgW 60 1).wellFormed = true ∧ Instr.stMsgW 60 1 ≠ .ldStatus := by decide
theorem witness_CounterReadAfterInit : full.busy = false ∧ full.phase ≠ .uninit ∧ State.reset.busy = false ∧
    State.reset.phase = .uninit := by decide
theorem witness_DigestReadInFinal : (idleIn .final).busy = false ∧ (idleIn .final).phase = .final ∧ (idleIn .accum).phase ≠ .final := by
  decide
/-- The digest stays: a store to MSG in FINAL, and a STATUS read with the next INIT pending. -/
theorem witness_DigestReadInFinal_stays :
    (let s := (idleIn .final).push (stw 0 0x7C 5)
     coherent s = true ∧ s.phase = .final ∧ (∃ t, step s = .next t) ∧ (∀ d rest, s.inputs ≠ .reset d :: rest) ∧ s.busy = false) ∧
    (let s := (pending 1 (idleIn .final)).push (ldw 0 0x04)
     coherent s = true ∧ s.phase = .final ∧ (∀ d rest, s.inputs ≠ .reset d :: rest) ∧ decodeCommand s.pcmd = .ok .init ∧
       ∃ t, step s = .next t ∧ t.busy = true) :=
  ⟨⟨by decide +kernel, rfl, ⟨_, rfl⟩, nofun, rfl⟩, by decide, rfl, nofun, by decide, _, rfl, rfl⟩
theorem witness_StoreWritesItsBytes : State.reset.busy = false ∧ alignedIndex 2 62 = true ∧ alignedIndex 4 60 = true := by decide
theorem witness_LoadReturnsItsBytes : full.busy = false ∧ alignedIndex 2 62 = true ∧ alignedIndex 4 60 = true ∧
    (∀ i, i < 64 → Memory.lookup full.mem (0x40 + i) = some 0x61) := by decide +kernel
theorem witness_LoadOfAnUnwrittenByteFaults : (Instr.ldMsgW 60).wellFormed = true ∧ (started (List.replicate 63 0x61)).busy = false ∧
    3 < (accessOf (.ldMsgW 60)).size.bytes ∧ (started (List.replicate 63 0x61)).valid ((60#6).toNat + 3) = false := by decide +kernel
theorem witness_MixedWidthLanesAgree : State.reset.busy = false ∧ alignedIndex 4 60 = true ∧ 3 < 4 ∧ (63#6).toNat = (60#6).toNat + 3 ∧
    2 % 2 = 0 ∧ (62#6).toNat = (60#6).toNat + 2 := by decide
theorem witness_MisalignedFormsFault : (Instr.stMsgW 62 1).wellFormed = false ∧ (Instr.ldMsgH 63).wellFormed = false := by decide
theorem witness_BusyWindowAdmitsOnlyStatus : (pending 1 State.reset).busy = true ∧ isCommand .ldStatus = false ∧
    Instr.ldStatus.wellFormed = true ∧ isCommand (.ldCnt 0) = false ∧ (Instr.ldCnt 0).wellFormed = true ∧ Instr.ldCnt 0 ≠ .ldStatus := by
  decide
theorem witness_ReadsHaveNoSideEffects : isCommand (.ldMsgW 60) = false ∧ (accessOf (.ldMsgW 60)).write = false ∧
    ∃ t, exec (.ldMsgW 60) full = .next t :=
  ⟨rfl, by decide, exists_of_after (f := (·.busy)) (v := false) (by decide +kernel)⟩
theorem witness_FaultsAreReportedInOrder : serves State.reset 0 ∧ ¬ allowedAccess ⟨false, .byte, 0x00, 0⟩ ∧
    (allowedAccess ⟨true, .word, 0x00, 0⟩ ∧ serves (pending 1 State.reset) 0 ∧ (pending 1 State.reset).busy = true ∧
      Access.desc ⟨true, .word, 0x00, 0⟩ ≠ 0x104) ∧
    (Access.desc ⟨true, .word, 0x00, 0⟩ = 0x300 ∧ State.reset.busy = false ∧ reservedWord 0) ∧
    (Access.desc ⟨true, .word, 0x00, 3⟩ = 0x300 ∧ ¬ reservedWord 3 ∧ (3#32).toNat % 16 ≠ 1 ∧ State.reset.phase.running = false) := by
  unfold serves allowedAccess reservedWord; decide
theorem witness_AcceptedCommandIsPerformed : atRest full ∧ decodeCommand 0x2 = .ok .compress ∧ ∃ t, exec (.stCmd 0x2) full = .next t :=
  ⟨⟨rfl, rfl⟩, by decide, exists_of_after (f := (·.busy)) (v := true) (by decide +kernel)⟩
theorem witness_CompletionEndsTheCommand : coherent (pending 1 State.reset) = true ∧
    (∃ t, complete (pending 1 State.reset) = .next t) ∧ State.reset.busy = false :=
  ⟨by decide, exists_of_after (f := (·.busy)) (v := false) (by decide +kernel), rfl⟩
theorem witness_EveryAcceptedCommandCompletes :
    (coherent (pending 0x33 (started [0x61])) = true ∧ (pending 0x33 (started [0x61])).busy = true) ∧
    (coherent { pending 2 full with seq := .step 47, lastPass := true } = true ∧
      ∀ i, i < 64 → State.valid { pending 2 full with seq := .step 47, lastPass := true } i = true) := by decide +kernel
theorem witness_SequencerRefinesTheCommands : (pending 0x3F3 full).busy = true ∧ (pending 0x3F3 full).seq = .idle ∧
    decodeCommand (pending 0x3F3 full).pcmd = .ok (.final 63) := by decide
theorem witness_MicroStepsAreInvisible : ∃ t, tick { pending 0x33 full with seq := .pad } = .next t ∧ t.busy = true :=
  ⟨_, rfl, rfl⟩
theorem witness_ResetWinsFromAnyState :
    let s := (pending 2 full).push (.reset (some (5, readWord 0x04)))
    s.inputs = [.reset (some (5, readWord 0x04))] ∧ ∀ h a, some (5, readWord 0x04) = some (h, a) → serves s h :=
  ⟨rfl, fun _ _ _ => .inl rfl⟩
theorem witness_NothingUnspecifiedIsReadAfterReset : isCommand (.ldMsgW 60) = false ∧ (Instr.ldMsgW 60).wellFormed = true ∧
    isCommand (.stCmd 2) = false ∧ (Instr.stCmd 2).wellFormed = true ∧ (2#32).toNat ≠ 1 ∧ isCommand (.stCmd 1) = false ∧
    (Instr.stCmd 1).wellFormed = true ∧ (1#32).toNat = 1 := by decide
theorem witness_FirstFaultIsKept : (∃ f, step (State.reset.push (.access 0 (readWord 0x08))) = .fault f) ∧
    (∃ t, step State.reset = .next t) ∧
    (let s := State.reset.record (.reservedCommand 0); (∃ t, run 1 s = some t) ∧ s.faults.head? = some (.reservedCommand 0)) :=
  ⟨⟨_, rfl⟩, ⟨_, rfl⟩, ⟨_, rfl⟩, rfl⟩
theorem witness_SecondHostIsRefused : ({ State.reset with host := some 1 }.host = some 1 ∧ 1 ≠ 2 ∧
      ({ State.reset with host := some 1 }.push (ldw 2 0x04)).inputs = [ldw 2 0x04]) ∧
    (∃ t, advance (State.reset.push (ldw 1 0x20)) = some t) ∧ (∃ t, advance (State.reset.push (ldw 1 0x04)) = some t) ∧
    (∃ t, advance { State.reset with host := some 1 } = some t) :=
  ⟨⟨rfl, by decide, rfl⟩, ⟨_, rfl⟩, ⟨_, rfl⟩, ⟨_, rfl⟩⟩
/-- Three events, of which the second faults. -/
theorem witness_RunTakesItsEventsInOrder : 2 ≤ (start [ldw 0 0x04, ldw 0 0x08, ldw 0 0x04]).inputs.length ∧
    ∃ t, run 2 (start [ldw 0 0x04, ldw 0 0x08, ldw 0 0x04]) = some t := ⟨by decide, _, rfl⟩
/-- INIT, its completion and the STATUS read that shows it, and then CNT. -/
theorem witness_PollingHostMeetsNoBusyAccess :
    let s := start (command 0 .init ++ poll 0 1 ++ [ldw 0 0x08])
    clean s = true ∧ s.busy = false ∧ keepsBusyWindow 5 false s = true ∧ ∃ t, run 5 s = some t :=
  ⟨rfl, rfl, by decide +kernel, _, rfl⟩
/-- Two instances in neighbouring windows. -/
def twoEngines : System := [⟨⟨0x80⟩, full⟩, ⟨⟨0x81⟩, State.reset⟩]
theorem witness_InstancesAreIndependent : ∃ sys, stepInstance step 1 twoEngines = .next sys := ⟨_, rfl⟩
theorem witness_WindowOffsetsKeepAlignment : windowOffset ⟨0x80⟩ 0x407F = some 0x7F ∧
    windowOffset ⟨0x80⟩ 0x4080 = none ∧ windowOffset ⟨0x80⟩ 0x3FFF = none ∧ windowOffset ⟨0x80⟩ 0x4000 = some 0 := by decide
theorem witness_AccessReachesTheInstanceOfItsWindow : System.wf twoEngines ∧
    twoEngines[1]? = some ⟨⟨0x81⟩, State.reset⟩ ∧ windowOffset ⟨0x81⟩ 0x4080 = some 0 ∧ 0 ≠ 1 ∧
    ∀ e ∈ twoEngines, windowOffset e.base 0x4100 = none := by
  unfold System.wf; exact ⟨by decide, rfl, by decide, by decide, by decide⟩
theorem witness_StepKeepsTheMemoryForm : Memory.wf (full.push (.access 0 ⟨true, .word, 0x7C, 5⟩)).mem = true ∧
    ∃ t, step (full.push (.access 0 ⟨true, .word, 0x7C, 5⟩)) = .next t :=
  ⟨by decide +kernel, exists_of_after (f := (·.busy)) (v := false) (by decide +kernel)⟩
theorem witness_StepKeepsTheControlInvariant : coherent (full.push (.access 0 ⟨true, .word, 0x00, 2⟩)) = true ∧
    ∃ t, step (full.push (.access 0 ⟨true, .word, 0x00, 2⟩)) = .next t :=
  ⟨by decide +kernel, exists_of_after (f := (·.busy)) (v := true) (by decide +kernel)⟩

end Sys2Proof.Tests
end

/-! # Proofs about the state (10_state.md): what each instruction and each step writes, and the sequencer -/

namespace Sys2Proof.Proofs

open Sys2Proof.Machine Sys2Proof.Safety Sys2Proof.Laws

/-! ### What each instruction can do where it answers

One inversion for each command and each access form; the proofs below cite these and do not unfold `exec`. -/

theorem exec_init_eq_next {s t : State} :
    exec .init s = .next t ↔ t = { s with acc := iv, cnt := 0, phase := .inited }.release :=
  ⟨fun h => (Host.Outcome.next.inj h).symm, fun h => h ▸ rfl⟩

theorem exec_compress_eq_next {s t : State} :
    exec .compress s = .next t ↔
      ∃ bs, s.block = some bs ∧ t = endCompress (s.commit (compress s.acc (blockWords bs))) := by
  change andThen (compressMsg s) _ = _ ↔ _
  simp only [andThen_eq_next, compressMsg_eq_next, Host.Outcome.next.injEq]
  constructor
  · rintro ⟨_, ⟨bs, hb, rfl⟩, rfl⟩; exact ⟨bs, hb, rfl⟩
  · rintro ⟨bs, hb, rfl⟩; exact ⟨_, ⟨bs, hb, rfl⟩, rfl⟩

/-- u is the state between PAD, with the overflow where there is one, and LEN (R57, R59). -/
theorem exec_final_eq_next {rem : BitVec 6} {s t : State} :
    exec (.final rem) s = .next t ↔
      (∃ tail, Memory.load s.mem msgBase rem.toNat = some tail) ∧
      ∃ u bs, overflow rem.toNat (padMsg rem.toNat s) = .next u ∧ (writeLength u).block = some bs ∧
        t = endFinal ((writeLength u).commit (compress u.acc (blockWords bs))) := by
  change execFinal rem s = _ ↔ _
  rw [execFinal]
  cases Memory.load s.mem msgBase rem.toNat with
  | none => simp [raiseUnwritten]
  | some tail =>
    simp only [andThen_eq_next, compressMsg_eq_next, Host.Outcome.next.injEq, writeLength_acc]
    constructor
    · rintro ⟨u, hu, _, ⟨bs, hb, rfl⟩, rfl⟩; exact ⟨⟨tail, rfl⟩, u, bs, hu, hb, rfl⟩
    · rintro ⟨_, u, bs, hu, hb, rfl⟩; exact ⟨u, hu, _, ⟨bs, hb, rfl⟩, rfl⟩

/-- What FINAL's overflow leaves: it writes the accumulator, MSG and the working registers only (R59). -/
theorem overflow_frame {n : Nat} {s t : State} (h : overflow n s = .next t) :
    t.cnt = s.cnt ∧ sameRun s t := by
  rcases overflow_eq_next.1 h with ⟨-, rfl⟩ | ⟨-, bs, -, rfl⟩ <;> simp [sameRun]

theorem exec_stCmd_eq_next {w : Word} {s t : State} :
    exec (.stCmd w) s = .next t ↔ s.busy = false ∧
      (∃ i, decodeCommand w = .ok i ∧ (needsRunning i = true → s.phase.running = true)) ∧ t = s.accept w := by
  change whenIdle _ s _ = _ ↔ _
  rw [whenIdle_eq_next]
  refine and_congr_right fun _ => ?_
  cases decodeCommand w with
  | error e => simp
  | ok i => cases hr : needsRunning i <;> cases s.phase.running <;> simp [hr, eq_comm (a := t)]

theorem exec_ldStatus_eq_next {s t : State} : exec .ldStatus s = .next t ↔ t = s.reply s.status :=
  ⟨fun h => (Host.Outcome.next.inj h).symm, fun h => h ▸ rfl⟩

theorem exec_ldCnt_eq_next {h : BitVec 1} {s t : State} :
    exec (.ldCnt h) s = .next t ↔ s.busy = false ∧ s.phase ≠ .uninit ∧ t = s.reply (s.cntHalf h) := by
  change whenIdle _ s _ = _ ↔ _
  rw [whenIdle_eq_next]
  by_cases hp : s.phase = .uninit <;> simp [hp, eq_comm (a := t)]

theorem exec_ldDigest_eq_next {n : BitVec 2} {s t : State} :
    exec (.ldDigest n) s = .next t ↔ s.busy = false ∧ s.phase = .final ∧ t = s.reply (s.acc.word n) := by
  change whenIdle _ s _ = _ ↔ _
  rw [whenIdle_eq_next]
  by_cases hp : s.phase = .final <;> simp [hp, eq_comm (a := t)]

/-- The first byte's index of a MSG store (R70). -/
def storeIndex : Instr → Option (BitVec 6)
  | .stMsgB j _ => some j
  | .stMsgH j _ => some j
  | .stMsgW j _ => some j
  | _ => none

/-- The three things an access form can do where it answers: accept a command (R65), return a value (R67 to R69, R71), store
bytes to MSG (R70). -/
inductive AccessEffect (s : State) : Instr → State → Prop
  | accept (w : Word) (idle : s.busy = false) : AccessEffect s (.stCmd w) (s.accept w)
  | reply (i : Instr) (v : Word) (read : (accessOf i).write = false) : AccessEffect s i (s.reply v)
  | store (i : Instr) (j : BitVec 6) (index : storeIndex i = some j) (idle : s.busy = false) :
      AccessEffect s i { s with mem := Memory.store s.mem (msgBase + j.toNat)
                                  (laneBytes (accessOf i).size.bytes (accessOf i).data) }

theorem storeMsg_effect {i : Instr} {j : BitVec 6} {s t : State} (index : storeIndex i = some j)
    (h : storeMsg (accessOf i) j s = .next t) : AccessEffect s i t := by
  obtain ⟨_, idle, rfl⟩ := storeMsg_eq_next.1 h
  exact .store i j index idle

theorem loadMsg_effect {i : Instr} {j : BitVec 6} {s t : State} (read : (accessOf i).write = false)
    (h : loadMsg (accessOf i) j s = .next t) : AccessEffect s i t := by
  obtain ⟨_, _, bs, _, rfl⟩ := loadMsg_eq_next.1 h
  exact .reply i _ read

theorem exec_access_effect {i : Instr} {s t : State} (hi : isCommand i = false) (h : exec i s = .next t) :
    AccessEffect s i t := by
  cases i with
  | init => cases hi
  | compress => cases hi
  | final rem => cases hi
  | stCmd w => obtain ⟨idle, _, rfl⟩ := exec_stCmd_eq_next.1 h; exact .accept w idle
  | ldStatus => obtain rfl := exec_ldStatus_eq_next.1 h; exact .reply _ _ rfl
  | ldCnt half => obtain ⟨_, _, rfl⟩ := exec_ldCnt_eq_next.1 h; exact .reply _ _ rfl
  | ldDigest n => obtain ⟨_, _, rfl⟩ := exec_ldDigest_eq_next.1 h; exact .reply _ _ rfl
  | stMsgB j d => exact storeMsg_effect rfl h
  | stMsgH j d => exact storeMsg_effect rfl h
  | stMsgW j d => exact storeMsg_effect rfl h
  | ldMsgB j => exact loadMsg_effect rfl h
  | ldMsgH j => exact loadMsg_effect rfl h
  | ldMsgW j => exact loadMsg_effect rfl h

/-! ### The frame of the access forms -/

/-- t has s's computation: the accumulator, CNT, the working registers, PHASE and the sequencer (R22), FAULT, and the model's
own bookkeeping but for the values read. -/
structure KeepsComputation (s t : State) : Prop where
  acc : t.acc = s.acc
  cnt : t.cnt = s.cnt
  work : t.work = s.work
  phase : t.phase = s.phase
  seq : t.seq = s.seq
  lastPass : t.lastPass = s.lastPass
  faults : t.faults = s.faults
  host : t.host = s.host
  inputs : t.inputs = s.inputs
  free : t.free = s.free

theorem AccessEffect.keeps {i : Instr} {s t : State} (e : AccessEffect s i t) : KeepsComputation s t := by
  cases e <;> constructor <;> simp

/-- Only ST.CMD writes BUSY, which it sets. -/
theorem AccessEffect.busy {i : Instr} {s t : State} (e : AccessEffect s i t) :
    (∃ w, i = .stCmd w ∧ t.busy = true ∧ t.pcmd = w) ∨ ((∀ w, i ≠ .stCmd w) ∧ t.busy = s.busy ∧ t.pcmd = s.pcmd) := by
  cases e with
  | accept w idle => exact .inl ⟨w, rfl, rfl, rfl⟩
  | reply i v read => exact .inr ⟨fun w hw => (by subst hw; cases read), rfl, rfl⟩
  | store i j index idle => exact .inr ⟨fun w hw => (by subst hw; cases index), rfl, rfl⟩

/-- With a command pending an access form changes neither MSG nor PCMD (R33). -/
theorem AccessEffect.pending {i : Instr} {s t : State} (e : AccessEffect s i t) (hb : s.busy = true) :
    t.mem = s.mem ∧ t.pcmd = s.pcmd := by
  cases e with
  | accept w idle => simp [hb] at idle
  | reply i v read => exact ⟨rfl, rfl⟩
  | store i j index idle => simp [hb] at idle

/-- A store leaves the bytes outside those it names (R70). -/
theorem lookup_store_outside {m : Memory} {a lo n : Nat} (v : Word) (h : a < lo ∨ lo + n ≤ a) :
    Memory.lookup (Memory.store m lo (laneBytes n v)) a = Memory.lookup m a := by
  rw [lookup_store, laneBytes_length, if_neg (by omega)]

theorem AccessEffect.lookup_eq {i : Instr} {s t : State} (e : AccessEffect s i t) {a : Nat}
    (ha : ∀ j, storeIndex i = some j → a < msgBase + j.toNat ∨ msgBase + j.toNat + (accessOf i).size.bytes ≤ a) :
    Memory.lookup t.mem a = Memory.lookup s.mem a := by
  cases e with
  | accept w idle => rfl
  | reply i v read => rfl
  | store i j index idle => exact lookup_store_outside _ (ha j index)

/-- Settles O31: every access form has one of three effects, none of which writes the computation. -/
theorem accessFormsLeaveTheComputation : Obligations.AccessFormsLeaveTheComputation := by
  intro i s t hi h
  have e := exec_access_effect hi h
  have k := e.keeps
  refine ⟨k.acc, k.cnt, k.work, k.phase, k.seq, k.lastPass, k.faults, k.host, k.inputs, k.free, ?_, fun a ha => ?_⟩
  · rcases e.busy with ⟨w, rfl, _, hw⟩ | ⟨hn, _, hp⟩
    · exact hw
    · split
      · exact absurd rfl (hn _)
      · exact hp
  · refine e.lookup_eq fun j hj => ?_
    cases i with
    | stMsgB => cases hj; exact Nat.lt_or_gt_of_ne ha
    | stMsgH => cases hj; exact ha
    | stMsgW => cases hj; exact ha
    | _ => cases hj

/-! ### What the commands write -/

theorem exec_final_frame {rem : BitVec 6} {s t : State} (h : exec (.final rem) s = .next t) :
    t.cnt = s.cnt + BitVec.ofNat 64 rem.toNat ∧ t.phase = .final ∧ t.busy = false ∧ sameRun s t := by
  obtain ⟨_, u, bs, hu, _, rfl⟩ := exec_final_eq_next.1 h
  obtain ⟨hcnt, hrun⟩ := overflow_frame hu
  exact ⟨by simp [hcnt], rfl, rfl, by simpa [sameRun] using hrun⟩

/-- A command that completes leaves BUSY = 0, and FAULT, the values read, the host and the events to come. -/
theorem exec_command_frame {i : Instr} {s t : State} (hi : isCommand i = true) (h : exec i s = .next t) :
    t.busy = false ∧ sameRun s t := by
  cases i with
  | init => obtain rfl := exec_init_eq_next.1 h; simp [sameRun]
  | compress => obtain ⟨bs, _, rfl⟩ := exec_compress_eq_next.1 h; simp [sameRun]
  | final rem => exact (exec_final_frame h).2.2
  | _ => cases hi

theorem exec_access_cnt {i : Instr} {s t : State} (hi : isCommand i = false) (h : exec i s = .next t) :
    t.cnt = s.cnt := (exec_access_effect hi h).keeps.cnt

theorem exec_access_phase {i : Instr} {s t : State} (hi : isCommand i = false) (h : exec i s = .next t) :
    t.phase = s.phase := (exec_access_effect hi h).keeps.phase

/-- Settles O26: CNT after each instruction, by what the instruction can do where it answers. -/
theorem counterHasThreeWriters : Obligations.CounterHasThreeWriters := by
  refine ⟨fun i s t h => ?_, fun s hb hp => ⟨?_, ?_⟩⟩
  · cases i with
    | init => obtain rfl := exec_init_eq_next.1 h; simp
    | compress => obtain ⟨bs, _, rfl⟩ := exec_compress_eq_next.1 h; simp
    | final rem => exact (exec_final_frame h).1
    | _ => exact exec_access_cnt rfl h
  · exact exec_ldCnt_eq_next.2 ⟨hb, hp, rfl⟩
  · exact exec_ldCnt_eq_next.2 ⟨hb, hp, rfl⟩

/-- Settles O27: CNT's sum does not wrap below the limit, and 2^64 - 64 + 64 wraps to 0. -/
theorem counterNeverDecreasesBelowTheLimit : Obligations.CounterNeverDecreasesBelowTheLimit := by
  refine ⟨fun i s t hi hlim h => ?_, fun s t hc h => ?_⟩
  · have hcnt := counterHasThreeWriters.1 i s t h
    cases i with
    | init => exact absurd rfl hi
    | compress => dsimp only at hcnt hlim; rw [hcnt, BitVec.toNat_add]; simp; omega
    | final rem =>
      have := rem.isLt
      dsimp only at hcnt hlim
      rw [hcnt, BitVec.toNat_add, BitVec.toNat_ofNat]
      omega
    | _ => exact (congrArg BitVec.toNat hcnt).ge
  · have hcnt := counterHasThreeWriters.1 .compress s t h
    dsimp only at hcnt
    rw [hcnt, hc]
    decide

/-! ### The engine's own work: micro-steps and completion -/

/-- What the engine's own work shows the host: BUSY, PHASE and PCMD as they were, or the pending command ended (R66). -/
def PendingOrEnded (s t : State) : Prop :=
  (t.busy = s.busy ∧ t.phase = s.phase ∧ t.pcmd = s.pcmd) ∨ (s.busy = true ∧ t.busy = false)

/-- The frame of the engine's own work. -/
def EngineFrame (s t : State) : Prop := sameRun s t ∧ PendingOrEnded s t

theorem EngineFrame.refl (s : State) : EngineFrame s s := ⟨⟨rfl, rfl, rfl, rfl⟩, .inl ⟨rfl, rfl, rfl⟩⟩

/-- Work that goes on after work that left the command pending. -/
theorem EngineFrame.trans {s u t : State} (hu : EngineFrame s u) (hb : u.busy = s.busy) (ht : EngineFrame u t) :
    EngineFrame s t := by
  obtain ⟨⟨f1, r1, h1, i1⟩, p1⟩ := hu
  obtain ⟨⟨f2, r2, h2, i2⟩, p2⟩ := ht
  refine ⟨⟨f2.trans f1, r2.trans r1, h2.trans h1, i2.trans i1⟩, ?_⟩
  rcases p2 with ⟨hb2, hp2, hc2⟩ | ⟨hu2, ht2⟩
  · rcases p1 with ⟨_, hp1, hc1⟩ | ⟨hs, hu⟩
    · exact .inl ⟨hb2.trans hb, hp2.trans hp1, hc2.trans hc1⟩
    · exact .inr ⟨hs, hb2.trans hu⟩
  · exact .inr ⟨hb.symm.trans hu2, ht2⟩

theorem decodeCommand_isCommand {w : Word} {i : Instr} (h : decodeCommand w = .ok i) : isCommand i = true := by
  rcases decodeCommand_eq_ok h with rfl | rfl | rfl <;> rfl

/-- A command's meaning, performed while it is pending. -/
theorem exec_command_engineFrame {i : Instr} {s t : State} (hi : isCommand i = true) (hb : s.busy = true)
    (h : exec i s = .next t) : EngineFrame s t := by
  obtain ⟨ht, hrun⟩ := exec_command_frame hi h
  exact ⟨hrun, .inr ⟨hb, ht⟩⟩

/-- All a pending command's start can do where it answers: INIT is performed; COMPRESS goes to LOAD and FINAL to PAD, the bytes
that they read being written. -/
theorem startCommand_eq_next {s t : State} (h : startCommand s = .next t) :
    exec .init s = .next t ∨ t = s.beginPass true ∨ t = s.enter .pad := by
  unfold startCommand at h
  split at h
  · exact .inl h
  · split at h
    · exact .inr (.inl (Host.Outcome.next.inj h).symm)
    · cases h
  · split at h
    · exact .inr (.inr (Host.Outcome.next.inj h).symm)
    · cases h
  · cases h

theorem startCommand_frame {s t : State} (hb : s.busy = true) (h : startCommand s = .next t) : EngineFrame s t := by
  rcases startCommand_eq_next h with h | rfl | rfl
  · exact exec_command_engineFrame rfl hb h
  · simp [EngineFrame, sameRun, PendingOrEnded]
  · simp [EngineFrame, sameRun, PendingOrEnded]

theorem tickPad_frame (s : State) : EngineFrame s (tickPad s) := by
  unfold tickPad
  split <;> simp [EngineFrame, sameRun, PendingOrEnded]

theorem tickStep_frame {n : Fin 48} {s t : State} (h : tickStep n s = .next t) : EngineFrame s t := by
  unfold tickStep at h
  split at h
  · cases h
  · obtain rfl := Host.Outcome.next.inj h
    simp [EngineFrame, sameRun, PendingOrEnded]

theorem tickCommit_frame {s t : State} (hb : s.busy = true) (h : tickCommit s = .next t) : EngineFrame s t := by
  unfold tickCommit at h
  dsimp only at h
  split at h
  · split at h
    · obtain rfl := Host.Outcome.next.inj h; simp [EngineFrame, sameRun, PendingOrEnded, hb]
    · obtain rfl := Host.Outcome.next.inj h; simp [EngineFrame, sameRun, PendingOrEnded, hb]
    · cases h
  · obtain rfl := Host.Outcome.next.inj h
    simp [EngineFrame, sameRun, PendingOrEnded]

theorem tick_of_idle {s : State} (hb : s.busy = false) : tick s = .next s := by
  simp [tick, hb]

theorem tick_frame {s t : State} (h : tick s = .next t) : EngineFrame s t := by
  cases hb : s.busy with
  | false =>
    rw [tick_of_idle hb] at h
    cases h; exact .refl _
  | true =>
    simp only [tick, hb, if_true] at h
    split at h
    · exact startCommand_frame hb h
    · cases h; exact tickPad_frame _
    · cases h; simp [EngineFrame, sameRun, PendingOrEnded]
    · exact tickStep_frame h
    · exact tickCommit_frame hb h
    · cases h; simp [EngineFrame, sameRun, PendingOrEnded]

theorem runTicks_frame {k : Nat} {s t : State} (h : runTicks k s = .next t) : EngineFrame s t := by
  induction k generalizing s with
  | zero => cases h; exact .refl _
  | succ k ih =>
    cases hb : s.busy with
    | false => rw [runTicks_done _ hb] at h; cases h; exact .refl _
    | true =>
      rw [runTicks_succ _ hb] at h
      obtain ⟨u, hu, ht⟩ := andThen_eq_next.1 h
      have hfr := tick_frame hu
      cases hub : u.busy with
      | false => rw [runTicks_done _ hub] at ht; cases ht; exact hfr
      | true => exact hfr.trans (hub.trans hb.symm) (ih ht)

theorem complete_of_idle {s : State} (hb : s.busy = false) : complete s = .next s := by
  simp [complete, hb]

theorem complete_frame {s t : State} (h : complete s = .next t) : EngineFrame s t := by
  cases hb : s.busy with
  | false => rw [complete_of_idle hb] at h; cases h; exact .refl _
  | true =>
    simp only [complete, hb, if_true] at h
    split at h
    · split at h
      · next i hd => exact exec_command_engineFrame (decodeCommand_isCommand hd) hb h
      · cases h
    · exact runTicks_frame h

/-! ### What a step can do -/

/-- The three things a step that answers can be: a host's access form performed, the engine's own work, or RESET. -/
inductive StepEffect (s t : State) : Prop
  | access {h : Nat} {a : Access} {i : Instr} {rest : List Event} (head : s.inputs = .access h a :: rest)
      (form : decodeAccess a = .ok i) (effect : AccessEffect { s.pop with host := some h } i t)
  | engine {u : State} (head : ∀ h a rest, s.inputs ≠ .access h a :: rest) (taken : u = s ∨ u = s.pop)
      (work : tick u = .next t ∨ complete u = .next t)
  | reset {during : Option (Nat × Access)} {rest : List Event} (head : s.inputs = .reset during :: rest)
      (effect : resetEvent during s.pop = .next t)

theorem decodeAccess_isAccess {a : Access} {i : Instr} (h : decodeAccess a = .ok i) : isCommand i = false := by
  obtain ⟨hi, hc, hf⟩ := decodeAccess_not_command h
  cases i with
  | init => exact absurd rfl hi
  | compress => exact absurd rfl hc
  | final rem => exact absurd rfl (hf rem)
  | _ => rfl

theorem hostAccess_eq_next {h : Nat} {a : Access} {s t : State} (hn : hostAccess h a s = .next t) :
    ∃ i, decodeAccess a = .ok i ∧ AccessEffect { s with host := some h } i t := by
  obtain ⟨_, hk⟩ := claim_eq_next.1 hn
  cases hd : decodeAccess a with
  | error e => simp [hd] at hk
  | ok i =>
    rw [hd] at hk
    exact ⟨i, rfl, exec_access_effect (decodeAccess_isAccess hd) hk⟩

theorem step_effect {s t : State} (h : step s = .next t) : StepEffect s t := by
  unfold step at h
  split at h
  · next hin => exact .engine (by simp [hin]) (.inl rfl) (.inr h)
  · next e rest hin =>
    cases e with
    | access host a =>
      obtain ⟨i, hd, he⟩ := hostAccess_eq_next h
      exact .access hin hd he
    | complete => exact .engine (by simp [hin]) (.inr rfl) (.inr h)
    | tick => exact .engine (by simp [hin]) (.inr rfl) (.inl h)
    | reset during => exact .reset hin h

theorem engine_frame {u t : State} (h : tick u = .next t ∨ complete u = .next t) : EngineFrame u t :=
  h.elim tick_frame complete_frame

/-- With no command pending the engine's own work is nothing. -/
theorem engine_of_idle {u t : State} (hb : u.busy = false) (h : tick u = .next t ∨ complete u = .next t) : t = u := by
  rw [tick_of_idle hb, complete_of_idle hb, or_self] at h
  exact (Host.Outcome.next.inj h).symm

theorem resetEvent_eq_next {during : Option (Nat × Access)} {s t : State} (h : resetEvent during s = .next t) :
    ∃ u : State, t = u.assertReset ∧ u.faults = s.faults := by
  cases during with
  | none => exact ⟨s, (Host.Outcome.next.inj h).symm, rfl⟩
  | some access =>
    obtain ⟨host, a⟩ := access
    rw [resetEvent, claim_eq_next] at h
    obtain ⟨_, hk⟩ := h
    refine ⟨_, (Host.Outcome.next.inj hk).symm, ?_⟩
    unfold dropAccess
    split <;> simp

/-! ### PHASE, BUSY and the computation, step by step -/

/-- Settles O28: each instruction's phase, and a step's by the three things it can be. -/
theorem phaseChangesOnlyAtCompletionOrReset : Obligations.PhaseChangesOnlyAtCompletionOrReset := by
  refine ⟨rfl, rfl, rfl, rfl, fun i s t h => ?_, fun s => rfl, fun s t h => ?_⟩
  · cases i with
    | init => obtain rfl := exec_init_eq_next.1 h; simp
    | compress => obtain ⟨bs, _, rfl⟩ := exec_compress_eq_next.1 h; simp
    | final rem => exact (exec_final_frame h).2.1
    | _ => exact exec_access_phase rfl h
  · cases step_effect h with
    | access head form effect => exact .inl effect.keeps.phase
    | engine head taken work =>
      obtain ⟨_, ⟨_, hp, _⟩ | ⟨hu, ht⟩⟩ := engine_frame work
      · exact .inl (by rcases taken with rfl | rfl <;> exact hp)
      · exact .inr (.inl ⟨by rcases taken with rfl | rfl <;> exact hu, ht⟩)
    | reset head effect => exact .inr (.inr ⟨_, _, head⟩)

theorem exec_access_busy {i : Instr} {s t : State} (hi : isCommand i = false) (hn : ∀ w, i ≠ .stCmd w)
    (h : exec i s = .next t) : t.busy = s.busy := by
  rcases (exec_access_effect hi h).busy with ⟨w, hw, _⟩ | ⟨_, hb, _⟩
  · exact absurd hw (hn w)
  · exact hb

/-- Settles O29: each instruction's BUSY, and which steps set and which clear it. -/
theorem busyFollowsTheCommand : Obligations.BusyFollowsTheCommand := by
  refine ⟨fun i s t h => ?_, fun s => rfl, fun s t h hs ht => ?_, fun s t h hs ht h' a rest hin => ?_⟩
  · cases i with
    | init => exact (exec_command_frame rfl h).1
    | compress => exact (exec_command_frame rfl h).1
    | final rem => exact (exec_command_frame rfl h).1
    | stCmd w => obtain ⟨_, _, rfl⟩ := exec_stCmd_eq_next.1 h; rfl
    | _ => exact exec_access_busy rfl (by simp) h
  · cases step_effect h with
    | access head form effect =>
      rcases effect.busy with ⟨w, rfl, _, hp⟩ | ⟨_, hb, _⟩
      · exact ⟨_, _, w, _, head, form, hp⟩
      · simp [hb, hs] at ht
    | engine head taken work =>
      have hu : t.busy = false := by
        rcases taken with rfl | rfl
        · rw [engine_of_idle hs work]; exact hs
        · rw [engine_of_idle (by exact hs) work]; exact hs
      simp [hu] at ht
    | reset head effect =>
      obtain ⟨u, rfl, _⟩ := resetEvent_eq_next effect
      simp at ht
  · cases step_effect h with
    | access head form effect =>
      rcases effect.busy with ⟨w, _, hb, _⟩ | ⟨_, hb, _⟩ <;> simp [hb, hs] at ht
    | engine head taken work => exact head _ _ _ hin
    | reset head effect => simp [hin] at head

/-- Settles O30: an access form keeps the computation, and with no command pending the engine's own work is nothing. -/
theorem onlyCommandsAndResetWriteTheComputation : Obligations.OnlyCommandsAndResetWriteTheComputation := by
  intro s t h hreset hwhen
  cases step_effect h with
  | access head form effect =>
    have k := effect.keeps
    exact ⟨k.acc, k.cnt, k.work, k.phase, k.seq, fun hb => effect.pending hb⟩
  | engine head taken work =>
    have hs : s.busy = false := hwhen.resolve_right fun ⟨_, _, _, hin⟩ => head _ _ _ hin
    rcases taken with rfl | rfl
    · obtain rfl := engine_of_idle hs work; simp
    · obtain rfl := engine_of_idle (by exact hs) work; simp
  | reset head effect => exact absurd head (hreset _ _)

/-! ### FAULT -/

theorem step_faults {s t : State} (h : step s = .next t) : t.faults = s.faults := by
  cases step_effect h with
  | access head form effect => exact effect.keeps.faults
  | engine head taken work =>
    obtain ⟨⟨hf, _⟩, _⟩ := engine_frame work
    rcases taken with rfl | rfl <;> exact hf
  | reset head effect =>
    obtain ⟨u, rfl, hf⟩ := resetEvent_eq_next effect
    exact hf

theorem advance_first_fault {s t : State} {f : Fault} (h : advance s = some t) (hf : s.faults.head? = some f) :
    t.faults.head? = some f := by
  rcases advance_eq_some.1 h with hn | ⟨g, _, rfl⟩
  · rw [step_faults hn, hf]
  · rw [afterFault_faults, List.head?_append, hf, Option.some_or]

/-- Settles O53: no step takes a reason out and a fault adds its own at the end; then by induction on the run. -/
theorem firstFaultIsKept : Obligations.FirstFaultIsKept := by
  refine ⟨rfl, fun s f h => ⟨_, advance_eq_some.2 (.inr ⟨f, h, rfl⟩), rfl⟩, fun s t => step_faults, fun k => ?_⟩
  induction k with
  | zero => rintro s t f h hf; cases h; exact hf
  | succ k ih =>
    intro s t f h hf
    obtain ⟨u, hu, ht⟩ := run_succ.1 h
    exact ih u t f ht (advance_first_fault hu hf)

/-! ### The block's words -/

/-- Word j of a list of bytes is the little-endian value of its bytes 4j to 4j + 3. -/
theorem blockWords_getElem? {bs : List Byte} {j : Nat} {b0 b1 b2 b3 : Byte} (h0 : bs[4 * j]? = some b0)
    (h1 : bs[4 * j + 1]? = some b1) (h2 : bs[4 * j + 2]? = some b2) (h3 : bs[4 * j + 3]? = some b3) :
    (blockWords bs)[j]? = some (leValue [b0, b1, b2, b3]) := by
  induction j generalizing bs with
  | zero =>
    match bs, h0, h1, h2, h3 with
    | _ :: _ :: _ :: _ :: _, h0, h1, h2, h3 => simp_all [blockWords]
  | succ j ih =>
    match bs, h3 with
    | _ :: _ :: _ :: _ :: bs, h3 =>
      exact ih (bs := bs) h0 h1 h2 h3

/-- The little-endian value of four bytes, written out (R11). -/
theorem leValue_four (b0 b1 b2 b3 : Byte) : leValue [b0, b1, b2, b3] =
    (b0.setWidth 32 ||| (b1.setWidth 32 <<< 8) ||| (b2.setWidth 32 <<< 16) ||| (b3.setWidth 32 <<< 24)) := by
  simp [leValue, BitVec.shiftLeft_or_distrib, ← BitVec.shiftLeft_add, BitVec.or_assoc]

/-- Settles O19: the block's bytes are MSG's, and a word is four of them. -/
theorem blockWordsAreLittleEndian : Obligations.BlockWordsAreLittleEndian := by
  intro s bs j b0 b1 b2 b3 hblock hj h0 h1 h2 h3
  obtain ⟨_, hbytes⟩ := (load_eq_some_iff _ _ _ _).1 hblock
  have byte : ∀ k < 64, bs[k]? = Memory.lookup s.mem (0x40 + k) := fun k hk => (hbytes k hk).symm
  rw [List.getD_eq_getElem?_getD, blockWords_getElem? ((byte _ (by omega)).trans h0) ((byte _ (by omega)).trans h1)
    ((byte _ (by omega)).trans h2) ((byte _ (by omega)).trans h3), Option.getD_some, leValue_four]

/-! ### The sequencer comes to the command -/

theorem runTicks_init {k : Nat} {s : State} (hb : s.busy = true) (hq : s.seq = .idle)
    (hd : decodeCommand s.pcmd = .ok .init) : runTicks (k + 1) s = exec .init s := by
  rw [runTicks_succ _ hb, tick_idle hb hq, startCommand, hd]
  exact runTicks_done k rfl

/-- LOAD's place in SEQ is no part of what COMPRESS leaves. -/
theorem endCompress_beginPass (s : State) (last : Bool) (q : Quad) :
    endCompress ((s.beginPass last).commit q) = endCompress (s.commit q) := by
  refine state_ext ?_ ?_ ?_ ?_ ?_ ?_ ?_ ?_ ?_ ?_ ?_ ?_ ?_ ?_ <;> simp

theorem runTicks_compress {k : Nat} {s : State} (hb : s.busy = true) (hq : s.seq = .idle)
    (hd : decodeCommand s.pcmd = .ok .compress) : runTicks (k + 51) s = exec .compress s := by
  change _ = execCompress s
  rw [show k + 51 = (k + 50) + 1 by omega, runTicks_succ _ hb, tick_idle hb hq, startCommand, hd, execCompress]
  cases hl : s.block with
  | none =>
    rw [block_eq] at hl
    simp [compressMsg, block_eq, hl, raiseUnwritten]
  | some bs =>
    rw [compressMsg_of_block hl, andThen_next]
    rw [block_eq] at hl
    simp only [hl, andThen_next]
    rw [runTicks_last_compress k (s := s.beginPass true) hb rfl rfl hl hd, beginPass_acc, endCompress_beginPass]

/-- u with the sequencer at LEN. -/
def atLen (u : State) (last : Bool) : State := { u with seq := .len, lastPass := last }

/-- From LEN on the micro-steps come to what FINAL's meaning does from there. -/
theorem runTicks_atLen (k : Nat) (last : Bool) {u : State} {bs : List Byte} {rem : BitVec 6} (hb : u.busy = true)
    (hl : u.block = some bs) (hd : decodeCommand u.pcmd = .ok (.final rem)) :
    runTicks (k + 51) (atLen u last) = andThen (compressMsg (writeLength u)) fun t => .next (endFinal t) := by
  rw [runTicks_len k (s := atLen u last) hb rfl (writeLength_block (s := atLen u last) hl) hd,
    compressMsg_of_block (writeLength_block hl), andThen_next]
  refine congrArg Host.Outcome.next (state_ext ?_ ?_ ?_ ?_ ?_ ?_ ?_ ?_ ?_ ?_ ?_ ?_ ?_ ?_) <;> simp [atLen]

/-- PAD of FINAL n: the marker's place decides whether the first compression or LEN follows (R59). -/
theorem tickPad_enter {n : Nat} {s : State} (hn : pendingRem s = n) : tickPad (s.enter .pad) =
    if 56 ≤ n then (padMsg n s).beginPass false else atLen (padMsg n s) s.lastPass := by
  subst hn
  rfl

/-- What the first of FINAL's two compressions leaves, but for SEQ, is what the overflow leaves. -/
theorem clearMsg_commit_enter_len (s : State) (q : Quad) :
    (clearMsg ((s.beginPass false).commit q)).enter .len = atLen (clearMsg (s.commit q)) false := by
  refine state_ext ?_ ?_ ?_ ?_ ?_ ?_ ?_ ?_ ?_ ?_ ?_ ?_ ?_ ?_ <;> simp [atLen]

/-- From PAD on, over a written remainder, the micro-steps come to FINAL's overflow, LEN and last compression. -/
theorem runTicks_tickPad {k : Nat} {s : State} {rem : BitVec 6} {tail : List Byte} (hb : s.busy = true)
    (hd : decodeCommand s.pcmd = .ok (.final rem)) (hl : Memory.load s.mem msgBase rem.toNat = some tail) :
    runTicks (k + 101) (tickPad (s.enter .pad)) =
      andThen (overflow rem.toNat (padMsg rem.toNat s)) fun t =>
        andThen (compressMsg (writeLength t)) fun u => .next (endFinal u) := by
  have hn : pendingRem s = rem.toNat := by
    rcases decodeCommand_eq_ok hd with h | h | h <;> cases h
    rfl
  have hblock := padMsg_block hl rem.isLt
  rw [tickPad_enter hn, overflow]
  split
  · rw [show k + 101 = (k + 51) + 50 by omega,
      runTicks_first (k + 51) (s := (padMsg rem.toNat s).beginPass false) hb rfl rfl hblock, clearMsg_commit_enter_len,
      runTicks_atLen k _ (by simpa using hb) (clearMsg_block _) (by simpa using hd), compressMsg_of_block hblock,
      andThen_next, andThen_next, beginPass_acc]
  · rw [show k + 101 = (k + 50) + 51 by omega,
      runTicks_atLen (k + 50) _ (u := padMsg rem.toNat s) hb hblock hd, andThen_next]

theorem runTicks_final {k : Nat} {s : State} {rem : BitVec 6} (hb : s.busy = true) (hq : s.seq = .idle)
    (hd : decodeCommand s.pcmd = .ok (.final rem)) : runTicks (k + 103) s = exec (.final rem) s := by
  change _ = execFinal rem s
  rw [show k + 103 = (k + 102) + 1 by omega, runTicks_succ _ hb, tick_idle hb hq, startCommand, hd, execFinal]
  cases hl : Memory.load s.mem msgBase rem.toNat with
  | none => simp [hl, raiseUnwritten]
  | some tail =>
    simp only [hl, andThen_next]
    rw [show k + 102 = (k + 101) + 1 by omega, runTicks_succ _ (s := s.enter .pad) hb, tick_pad (s := s.enter .pad) hb rfl,
      andThen_next, runTicks_tickPad hb hd hl]

/-- Settles O47: by the command in PCMD, from IDLE to its end. -/
theorem sequencerRefinesTheCommands : Obligations.SequencerRefinesTheCommands := by
  intro s i hb hq hd
  rcases decodeCommand_eq_ok hd with rfl | rfl | rfl
  · exact runTicks_init hb hq hd
  · exact runTicks_compress hb hq hd
  · exact runTicks_final hb hq hd

end Sys2Proof.Proofs

/-! # Proofs about the register window (20_memory.md): its map, its lanes and its place -/

namespace Sys2Proof.Proofs

open Sys2Proof.Machine Sys2Proof.Safety Sys2Proof.Laws

/-! ### The register map -/

/-- A transaction whose descriptor matches no row of R38 has no form. -/
theorem decodeAccess_of_no_row {a : Access} (h : busRows.any (fits a.desc) = false) : decodeAccess a = .error .noForm := by
  simp only [busRows, List.any_cons, List.any_nil, Bool.or_false, Bool.or_eq_false_iff] at h
  simp [decodeAccess, h]

/-- The rows of R38 match what R24 and R28 allow: for each size, over both directions and the 128 offsets of the window. -/
theorem row_fits_iff_allowedAccess (a : Access) : busRows.any (fits a.desc) = true ↔ allowedAccess a := by
  obtain ⟨write, size, off, data⟩ := a
  change busRows.any (fits (Access.desc ⟨write, size, off, 0⟩)) = true ↔ allowedAccess ⟨write, size, off, 0⟩
  unfold allowedAccess
  cases size with
  | byte => revert write off; decide +kernel
  | half => revert write off; decide +kernel
  | word => revert write off; decide +kernel

theorem decodeAccess_eq_noForm_iff (a : Access) : decodeAccess a = .error .noForm ↔ ¬ allowedAccess a := by
  rw [← row_fits_iff_allowedAccess]
  constructor
  · intro hn hrow
    obtain ⟨i, hi⟩ := (decodeAccess_isOk_iff a).2 hrow
    rw [hn] at hi
    cases hi
  · exact fun hrow => decodeAccess_of_no_row (Bool.eq_false_iff.2 hrow)

/-- R64: a served transaction that is not allowed faults before the state is looked at. -/
theorem hostAccess_of_not_allowed {a : Access} {h : Nat} {s : State} (ha : ¬ allowedAccess a) (hs : serves s h) :
    hostAccess h a s = .fault (.badAccess a) := by
  rw [hostAccess, claim_serves hs, (decodeAccess_eq_noForm_iff a).2 ha, raise_eq]

/-- Settles O7: the decoder's rows are the register map's, and a transaction with no form faults. -/
theorem onlyMappedAlignedAccessesAreDecoded : Obligations.OnlyMappedAlignedAccessesAreDecoded :=
  fun a => ⟨decodeAccess_eq_noForm_iff a, fun ha _ _ => hostAccess_of_not_allowed ha⟩

/-! ### Byte lanes -/

/-- One more byte below a little-endian value is a concatenation (R27). -/
theorem leValue_cons_of_eq_setWidth {bs : List Byte} {n : Nat} {w : BitVec n} (b : Byte)
    (h : leValue bs = w.setWidth 32) : leValue (b :: bs) = (w ++ b).setWidth 32 := by
  refine BitVec.eq_of_getLsbD_eq fun i hi => ?_
  simp only [leValue, h, BitVec.getLsbD_or, BitVec.getLsbD_shiftLeft, BitVec.getLsbD_setWidth, BitVec.getLsbD_append]
  by_cases hlow : i < 8
  · simp [hi, hlow]
  · have hhigh : b.getLsbD i = false := BitVec.getLsbD_of_ge _ _ (by omega)
    simp [hi, hlow, hhigh, show i - 8 < 32 by omega]

theorem leValue_four_append (b0 b1 b2 b3 : Byte) :
    leValue [b0, b1, b2, b3] = (b3 ++ b2 ++ b1 ++ b0).setWidth 32 := by
  have top : leValue [b3] = b3.setWidth 32 := by simp [leValue]
  exact leValue_cons_of_eq_setWidth b0 (leValue_cons_of_eq_setWidth b1 (leValue_cons_of_eq_setWidth b2 top))

/-- Bytes b to b + n - 1 of a word. -/
def lanes (v : Word) (b n : Nat) : List Byte := (List.range n).map fun c => v.extractLsb' (8 * (b + c)) 8

theorem lanes_succ (v : Word) (b n : Nat) : lanes v b (n + 1) = v.extractLsb' (8 * b) 8 :: lanes v (b + 1) n := by
  simp [lanes, List.range_succ_eq_map, Function.comp_def, Nat.add_assoc, Nat.add_comm 1]

/-- The value of n lanes of a word is that field of it. -/
theorem leValue_lanes (v : Word) (b n : Nat) : leValue (lanes v b n) = (v.extractLsb' (8 * b) (8 * n)).setWidth 32 := by
  induction n generalizing b with
  | zero => simp [lanes, leValue]
  | succ n ih =>
    rw [lanes_succ, leValue_cons_of_eq_setWidth _ (ih (b + 1)),
      BitVec.extractLsb'_append_extractLsb'_eq_extractLsb' (by omega)]
    rfl

/-- A load inside a store's bytes reads the lanes stored there. -/
theorem load_store_lanes (m : Memory) (a : Nat) (v : Word) {k b n : Nat} (h : b + n ≤ k) :
    Memory.load (Memory.store m a (laneBytes k v)) (a + b) n = some (lanes v b n) := by
  rw [load_eq_some_iff]
  refine ⟨by simp [lanes], fun c hc => ?_⟩
  rw [lookup_store, laneBytes_length, if_pos (by omega), show a + b + c - a = b + c by omega,
    laneBytes_getElem? v (by omega)]
  simp [lanes, hc]

/-- What a store wrote is what a load of as many bytes there reads. -/
theorem load_store_self (m : Memory) (a : Nat) (bs : List Byte) :
    Memory.load (Memory.store m a bs) a bs.length = some bs := by
  rw [load_eq_some_iff]
  refine ⟨rfl, fun c hc => ?_⟩
  rw [lookup_store, if_pos (by omega), Nat.add_sub_cancel_left]

/-! ### Stores and loads of mixed widths -/

theorem alignedIndex_one (i : BitVec 6) : alignedIndex 1 i = true := by
  simp [alignedIndex, Nat.mod_one]

theorem exec_stMsgW_of_idle {j : BitVec 6} (v : Word) {s : State} (hb : s.busy = false)
    (hj : alignedIndex 4 j = true) :
    exec (.stMsgW j v) s = .next { s with mem := Memory.store s.mem (msgBase + j.toNat) (laneBytes 4 v) } :=
  storeMsg_eq_next.2 ⟨hj, hb, rfl⟩

theorem exec_stMsgB_of_idle (j : BitVec 6) (d : Byte) {s : State} (hb : s.busy = false) :
    exec (.stMsgB j d) s = .next { s with mem := Memory.insert (msgBase + j.toNat) d s.mem } := by
  have lane : laneBytes 1 (d.setWidth 32) = [d] := by
    simp [laneBytes, ← BitVec.setWidth_eq_extractLsb']
  refine storeMsg_eq_next.2 ⟨alignedIndex_one j, hb, ?_⟩
  change _ = { s with mem := Memory.store s.mem (msgBase + j.toNat) (laneBytes 1 (d.setWidth 32)) }
  rw [lane]
  rfl

theorem loadMsg_of_load {a : Access} {i : BitVec 6} {s : State} {bs : List Byte}
    (hi : alignedIndex a.size.bytes i = true) (hb : s.busy = false)
    (hl : Memory.load s.mem (msgBase + i.toNat) a.size.bytes = some bs) : loadMsg a i s = .next (s.reply (leValue bs)) :=
  loadMsg_eq_next.2 ⟨hi, hb, bs, hl, rfl⟩

/-- After a word store, an aligned load of any size inside it reads the word's field at its lane (R27). -/
theorem loadMsg_after_stMsgW {a : Access} {j k : BitVec 6} {b : Nat} (v : Word) {s : State} (hb : s.busy = false)
    (hj : alignedIndex 4 j = true) (hk : k.toNat = j.toNat + b) (hin : b + a.size.bytes ≤ 4)
    (hka : alignedIndex a.size.bytes k = true) :
    ∃ t, andThen (exec (.stMsgW j v) s) (loadMsg a k) = .next t ∧
      t.reads = (v.extractLsb' (8 * b) (8 * a.size.bytes)).setWidth 32 :: s.reads := by
  have hload := load_store_lanes s.mem (msgBase + j.toNat) v hin
  rw [Nat.add_assoc, ← hk] at hload
  rw [exec_stMsgW_of_idle v hb hj, andThen_next, loadMsg_of_load hka (by exact hb) hload, leValue_lanes]
  exact ⟨_, rfl, rfl⟩

/-- A halfword lane of an aligned word is aligned. -/
theorem alignedIndex_two_of_lane {j k : BitVec 6} {b : Nat} (hj : alignedIndex 4 j = true) (hk : k.toNat = j.toNat + b)
    (hb : b % 2 = 0) : alignedIndex 2 k = true := by
  simp only [alignedIndex, beq_iff_eq] at hj ⊢
  omega

/-- The lanes of an aligned word have the indices j to j + 3: none wraps. -/
theorem toNat_add_lane {j : BitVec 6} (hj : alignedIndex 4 j = true) {c : BitVec 6} (hc : c.toNat < 4) :
    (j + c).toNat = j.toNat + c.toNat := by
  have room := alignedIndex_room .word hj
  exact BitVec.toNat_add_of_lt (by simp only [Size.bytes] at room; omega)

/-- Four byte stores at rising indices of an aligned word are one store of the four bytes. -/
theorem exec_four_stMsgB {j : BitVec 6} (b0 b1 b2 b3 : Byte) {s : State} (hb : s.busy = false)
    (hj : alignedIndex 4 j = true) (k : State → Result) :
    andThen (exec (.stMsgB j b0) s) (fun s1 => andThen (exec (.stMsgB (j + 1) b1) s1) fun s2 =>
      andThen (exec (.stMsgB (j + 2) b2) s2) fun s3 => andThen (exec (.stMsgB (j + 3) b3) s3) k) =
    k { s with mem := Memory.store s.mem (msgBase + j.toNat) [b0, b1, b2, b3] } := by
  rw [exec_stMsgB_of_idle j b0 hb, andThen_next, exec_stMsgB_of_idle _ b1 (by exact hb), andThen_next,
    exec_stMsgB_of_idle _ b2 (by exact hb), andThen_next, exec_stMsgB_of_idle _ b3 (by exact hb), andThen_next,
    toNat_add_lane hj (by decide), toNat_add_lane hj (by decide), toNat_add_lane hj (by decide)]
  rfl

/-- Settles O39: a narrow load reads its lane of the stored word, and four byte stores are a store of four bytes. -/
theorem mixedWidthLanesAgree : Obligations.MixedWidthLanesAgree := by
  refine ⟨fun j k v s b hb hj hlt hk => ⟨?_, fun heven => ?_⟩, fun j b0 b1 b2 b3 s hb hj => ?_⟩
  · exact loadMsg_after_stMsgW (a := accessOf (.ldMsgB k)) v hb hj hk hlt (alignedIndex_one k)
  · have hin : b + 2 ≤ 4 := by omega
    exact loadMsg_after_stMsgW (a := accessOf (.ldMsgH k)) v hb hj hk hin (alignedIndex_two_of_lane hj hk heven)
  · have hload := load_store_self s.mem (msgBase + j.toNat) [b0, b1, b2, b3]
    rw [exec_four_stMsgB b0 b1 b2 b3 hb hj]
    exact ⟨_, loadMsg_of_load (a := accessOf (.ldMsgW j)) hj hb hload,
      congrArg (· :: s.reads) (leValue_four_append b0 b1 b2 b3)⟩

/-! ### The window's place -/

theorem baseAddress_mod (base : Base) : baseAddress base % 128 = 0 := Nat.mul_mod_right 128 base.page

theorem windowOffset_eq_none {base : Base} {address : Nat} :
    windowOffset base address = none ↔ address < baseAddress base ∨ baseAddress base + 128 ≤ address := by
  rw [windowOffset, ite_eq_right_iff]
  simp only [reduceCtorEq, imp_false]
  omega

theorem baseAddress_add_offset {base : Base} {address : Nat} {off : BitVec 7}
    (h : windowOffset base address = some off) : baseAddress base + off.toNat = address := by
  obtain ⟨hlow, hhigh, rfl⟩ := windowOffset_eq_some.1 h
  rw [BitVec.toNat_ofNat, Nat.mod_eq_of_lt (by omega), Nat.add_sub_cancel' hlow]

theorem size_dvd_window (sz : Size) : sz.bytes ∣ 128 := by
  cases sz <;> decide

/-- BASE has every size's alignment, so an address and its offset are aligned alike (R23, R28). -/
theorem offset_mod_size {base : Base} {address : Nat} {off : BitVec 7} (h : windowOffset base address = some off)
    (sz : Size) : off.toNat % sz.bytes = address % sz.bytes := by
  have hbase : baseAddress base % sz.bytes = 0 :=
    Nat.mod_eq_zero_of_dvd ((size_dvd_window sz).trans (Nat.dvd_of_mod_eq_zero (baseAddress_mod base)))
  rw [← baseAddress_add_offset h, Nat.add_mod, hbase, Nat.zero_add, Nat.mod_mod]

/-- Settles O57: the offset is the address less a BASE that every size divides. -/
theorem windowOffsetsKeepAlignment : Obligations.WindowOffsetsKeepAlignment :=
  fun base _ => ⟨baseAddress_mod base, windowOffset_eq_none, fun _ h =>
    ⟨baseAddress_add_offset h, offset_mod_size h, fun _ _ _ => by rw [accessAt, h, Option.map_some]⟩⟩

end Sys2Proof.Proofs

/-! # Proofs about the encoding (30_encoding.md): the reserved command words and the descriptor table -/

namespace Sys2Proof.Proofs

open Sys2Proof.Machine Sys2Proof.Safety Sys2Proof.Laws

/-! ### Reserved command words -/

theorem opField_toNat (w : Word) : (opField w).toNat = w.toNat % 16 := by
  simp [opField]

theorem remField_toNat (w : Word) : (remField w).toNat = w.toNat / 16 % 64 := by
  simp [remField, Nat.shiftRight_eq_div_pow]

theorem rsvField_toNat (w : Word) : (rsvField w).toNat = w.toNat / 1024 := by
  have hw := word_fields w
  rw [opField_toNat, remField_toNat] at hw
  omega

/-- R37's conditions on the three fields. -/
theorem reservedWord_iff_fields (w : Word) :
    reservedWord w ↔ rsvField w ≠ 0#22 ∨ (opField w ≠ 1#4 ∧ opField w ≠ 2#4 ∧ opField w ≠ 3#4) ∨
      (remField w ≠ 0#6 ∧ (opField w = 1#4 ∨ opField w = 2#4)) := by
  simp only [reservedWord, ← opField_toNat, ← remField_toNat, ← rsvField_toNat, ne_eq, BitVec.toNat_eq,
    BitVec.toNat_ofNat]
  omega

/-- The decoder of command words refuses exactly R37's words. -/
theorem decodeCommand_eq_reserved_iff (w : Word) :
    decodeCommand w = .error .reservedCommand ↔ reservedWord w := by
  rw [reservedWord_iff_fields, decodeCommand]
  by_cases hrsv : rsvField w = 0#22
  · by_cases h1 : opField w = 1#4
    · by_cases hrem : remField w = 0#6 <;> simp [hrsv, h1, hrem]
    by_cases h2 : opField w = 2#4
    · by_cases hrem : remField w = 0#6 <;> simp [hrsv, h2, hrem]
    by_cases h3 : opField w = 3#4 <;> simp [hrsv, h1, h2, h3]
  · simp [hrsv]

/-- ST.CMD of a reserved word faults before PHASE is looked at (R65). -/
theorem exec_stCmd_of_reserved {w : Word} {s : State} (hw : reservedWord w) (hb : s.busy = false) :
    exec (.stCmd w) s = .fault (.reservedCommand w) := by
  change whenIdle _ s _ = _
  rw [whenIdle_idle hb, (decodeCommand_eq_reserved_iff w).2 hw, raise_eq]

/-- Settles O5: the decoder refuses R37's words, and ST.CMD faults where the decoder refuses. -/
theorem reservedWordsAreRefusedAtTheWrite : Obligations.ReservedWordsAreRefusedAtTheWrite :=
  fun w => ⟨decodeCommand_eq_reserved_iff w, fun hw _ hb => exec_stCmd_of_reserved hw hb⟩

/-! ### The descriptor table -/

/-- `desc = W << 9 | SZC << 7 | off` is a sum, the three fields being apart (R38). -/
theorem desc_toNat (a : Access) :
    a.desc.toNat = (if a.write then 512 else 0) + a.size.code.toNat * 128 + a.off.toNat := by
  rw [Access.desc, BitVec.toNat_cast, BitVec.toNat_append, ← Nat.shiftLeft_add_eq_or_of_lt a.off.isLt,
    BitVec.toNat_append, ← Nat.shiftLeft_add_eq_or_of_lt a.size.code.isLt, Nat.shiftLeft_eq, Nat.shiftLeft_eq,
    BitVec.toNat_ofBool]
  cases a.write <;> simp [Nat.add_mul]

/-- Two rows that fix some common bit to different values. -/
def rowsApart (r r' : BusRow) : Prop := r.1 &&& r'.2 ≠ r'.1 &&& r.2

theorem busRows_pairwise_apart : busRows.Pairwise rowsApart := by
  unfold rowsApart; decide

/-- A descriptor that matches both rows agrees with both on their common bits. -/
theorem not_rowsApart_of_fits {d : BitVec 10} {r r' : BusRow} (h : fits d r = true) (h' : fits d r' = true) :
    ¬ rowsApart r r' := by
  rw [fits_iff] at h h'
  rw [rowsApart, not_not, ← h, ← h', BitVec.and_assoc, BitVec.and_assoc, BitVec.and_comm r.2]

/-- No descriptor matches two forms (R38). -/
theorem filter_fits_length_le_one (d : BitVec 10) : (busRows.filter (fits d)).length ≤ 1 := by
  have apart : (busRows.filter (fits d)).Pairwise rowsApart := busRows_pairwise_apart.filter _
  have fit : ∀ r ∈ busRows.filter (fits d), fits d r = true := fun r hr => (List.mem_filter.1 hr).2
  match busRows.filter (fits d), apart, fit with
  | [], _, _ => exact Nat.zero_le 1
  | [_], _, _ => exact Nat.le_refl 1
  | r :: r' :: _, apart, fit =>
    exact absurd (List.rel_of_pairwise_cons apart (by simp)) (not_rowsApart_of_fits (fit r (by simp)) (fit r' (by simp)))

/-- R38's table: each row beside the form, with its operands, that a transaction matching it is. -/
def accessForms (a : Access) : List (BusRow × Instr) :=
  [(rowStCmd, .stCmd a.data), (rowLdStatus, .ldStatus), (rowLdCnt, .ldCnt (a.off.extractLsb' 2 1)),
    (rowLdDigest, .ldDigest (a.off.extractLsb' 2 2)),
    (rowStMsgB, .stMsgB (a.off.extractLsb' 0 6) (a.data.extractLsb' 0 8)),
    (rowStMsgH, .stMsgH (a.off.extractLsb' 0 6) (a.data.extractLsb' 0 16)),
    (rowStMsgW, .stMsgW (a.off.extractLsb' 0 6) a.data), (rowLdMsgB, .ldMsgB (a.off.extractLsb' 0 6)),
    (rowLdMsgH, .ldMsgH (a.off.extractLsb' 0 6)), (rowLdMsgW, .ldMsgW (a.off.extractLsb' 0 6))]

theorem accessForms_rows (a : Access) : (accessForms a).map Prod.fst = busRows := rfl

/-- What a transaction decodes to stands in the table, at a row its descriptor matches. -/
theorem decodeAccess_mem_accessForms {a : Access} {i : Instr} (h : decodeAccess a = .ok i) :
    ∃ r, fits a.desc r = true ∧ (r, i) ∈ accessForms a := by
  rcases decodeAccess_eq_ok h with ⟨hr, rfl⟩ | ⟨hr, rfl⟩ | ⟨hr, rfl⟩ | ⟨hr, rfl⟩ | ⟨hr, rfl⟩ | ⟨hr, rfl⟩ | ⟨hr, rfl⟩ |
    ⟨hr, rfl⟩ | ⟨hr, rfl⟩ | ⟨hr, rfl⟩ <;> exact ⟨_, hr, by simp [accessForms]⟩

/-- Two entries of the table whose rows a descriptor matches are one. -/
theorem accessForms_entry_unique {a : Access} {d : BitVec 10} {p q : BusRow × Instr} (hp : p ∈ accessForms a)
    (hq : q ∈ accessForms a) (fp : fits d p.1 = true) (fq : fits d q.1 = true) : p = q := by
  have apart : (accessForms a).Pairwise fun p q => rowsApart p.1 q.1 :=
    List.pairwise_map.1 (accessForms_rows a ▸ busRows_pairwise_apart)
  have symm : Std.Symm fun p q : BusRow × Instr => rowsApart p.1 q.1 := ⟨fun _ _ => Ne.symm⟩
  by_contra hne
  exact not_rowsApart_of_fits fp fq (apart.forall hp hq hne)

/-- A transaction that matches a row of R38 decodes to that row's form, whatever the order of the rows. -/
theorem decodeAccess_of_row (a : Access) :
    ∀ p ∈ accessForms a, a.desc &&& p.1.2 = p.1.1 → decodeAccess a = .ok p.2 := by
  intro p hp hfit
  have fp : fits a.desc p.1 = true := (fits_iff _ _).2 hfit
  have hrow : p.1 ∈ busRows := accessForms_rows a ▸ List.mem_map_of_mem hp
  obtain ⟨i, hi⟩ := (decodeAccess_isOk_iff a).2 (List.any_eq_true.2 ⟨p.1, hrow, fp⟩)
  obtain ⟨r, fr, hr⟩ := decodeAccess_mem_accessForms hi
  rw [hi, accessForms_entry_unique hp hr fp fr]

/-- Settles O6: the rows are apart, so a match decides the form; where none matches the decoder refuses. -/
theorem descriptorTableDecides : Obligations.DescriptorTableDecides := by
  refine ⟨desc_toNat, fun a => ?_, rfl, filter_fits_length_le_one, by decide, by decide, by decide, by decide⟩
  have rows := decodeAccess_of_row a
  simp only [accessForms, List.forall_mem_cons] at rows
  obtain ⟨stCmd, ldStatus, ldCnt, ldDigest, stMsgB, stMsgH, stMsgW, ldMsgB, ldMsgH, ldMsgW, _⟩ := rows
  refine ⟨stCmd, ldStatus, ldCnt, ldDigest, stMsgB, stMsgH, stMsgW, ldMsgB, ldMsgH, ldMsgW, fun none_fits => ?_⟩
  refine decodeAccess_of_no_row (List.any_eq_false.2 fun r hr => ?_)
  rw [fits_iff]
  exact none_fits r hr

end Sys2Proof.Proofs

/-! # Proofs about the compression (40_compression.md): the datapath, INIT and COMPRESS -/

namespace Sys2Proof.Proofs

open Sys2Proof.Machine Sys2Proof.Safety Sys2Proof.Laws

/-! ### Rotation -/

/-- For the amounts R41 allows, the model's rotation is the library's. -/
theorem rotl32_eq_rotateLeft (x : Word) {s : Nat} (hs : s < 32) : rotl32 x s = x.rotateLeft s :=
  (BitVec.rotateLeft_eq_rotateLeftAux_of_lt hs).symm

/-- Bit i goes to bit i + s, around the word's end. -/
theorem getLsbD_rotl32_add (x : Word) {s i : Nat} (hs : s < 32) (hi : i < 32) :
    (rotl32 x s).getLsbD ((i + s) % 32) = x.getLsbD i := by
  rw [rotl32_eq_rotateLeft x hs, BitVec.getLsbD_rotateLeft_of_le hs]
  by_cases hwrap : i + s < 32
  · rw [Nat.mod_eq_of_lt hwrap]
    simp [hwrap]
  · have hmod : (i + s) % 32 = i + s - 32 := by omega
    have hlow : i + s - 32 < s := by omega
    have hback : 32 - s + (i + s - 32) = i := by omega
    simp [hmod, hlow, hback]

theorem rotl32_toNat (x : Word) (s : Nat) :
    (rotl32 x s).toNat = (x.toNat * 2 ^ s ||| x.toNat / 2 ^ (32 - s)) % 2 ^ 32 := by
  have hlow : x.toNat / 2 ^ (32 - s) < 2 ^ 32 := (Nat.div_le_self _ _).trans_lt x.isLt
  rw [rotl32, BitVec.toNat_or, BitVec.toNat_shiftLeft, BitVec.toNat_ushiftRight, Nat.shiftLeft_eq,
    Nat.shiftRight_eq_div_pow, Nat.or_mod_two_pow, Nat.mod_eq_of_lt hlow]

/-- Settles O12: bit by bit, as a number, and over the 48 rows. -/
theorem rotationIsCircular : Obligations.RotationIsCircular :=
  ⟨fun x _ _ hs _ hi => getLsbD_rotl32_add x (Nat.lt_succ_of_le hs) hi, fun x s _ _ => rotl32_toNat x s,
    by decide, by decide⟩

/-! ### The rounds' functions -/

theorem getLsbD_fnF (x y z : Word) {i : Nat} (hi : i < 32) :
    (fnF x y z).getLsbD i = (x.getLsbD i && y.getLsbD i || !x.getLsbD i && z.getLsbD i) := by
  simp [fnF, hi]

theorem getLsbD_fnG (x y z : Word) (i : Nat) :
    (fnG x y z).getLsbD i =
      (x.getLsbD i && y.getLsbD i || x.getLsbD i && z.getLsbD i || y.getLsbD i && z.getLsbD i) := by
  simp [fnG]

theorem getLsbD_fnH (x y z : Word) (i : Nat) :
    (fnH x y z).getLsbD i = ((x.getLsbD i ^^ y.getLsbD i) ^^ z.getLsbD i) := by
  simp [fnH]

/-- Two of three bits are 1 where some pair of them is. -/
theorem majority_iff (x y z : Bool) :
    (x && y || x && z || y && z) = true ↔ 2 ≤ ([x, y, z].filter id).length := by
  revert x y z; decide

/-- The exclusive or of three bits is the parity of their number of ones. -/
theorem parity_iff (x y z : Bool) : ((x ^^ y) ^^ z) = true ↔ ([x, y, z].filter id).length % 2 = 1 := by
  revert x y z; decide

/-- Settles O13: each function's bit is that function of the three bits. -/
theorem stepFunctionsBitByBit : Obligations.StepFunctionsBitByBit := by
  refine fun x y z i hi => ⟨?_, ?_, ?_⟩
  · rw [getLsbD_fnF x y z hi]
    cases x.getLsbD i <;> simp
  · rw [getLsbD_fnG, majority_iff]
  · rw [getLsbD_fnH, parity_iff]

/-! ### The schedule -/

/-- Settles O14: the 48 rows, round by round, evaluated. -/
theorem scheduleIsTheTable : Obligations.ScheduleIsTheTable :=
  ⟨by decide, by decide, by decide, fun _ _ _ => ⟨rfl, rfl, rfl⟩⟩

/-- Settles O15: finite facts about the three lists of 16 indices. -/
theorem wordOrdersAreTheListedPermutations : Obligations.WordOrdersAreTheListedPermutations :=
  ⟨rfl, rfl, rfl, by decide, by decide, by decide, by decide⟩

/-! ### One step -/

theorem get_set_same (w : Quad) (r : Reg) (v : Word) : (w.set r v).get r = v := by
  cases r <;> rfl

theorem get_set_of_ne (w : Quad) {r r' : Reg} (v : Word) (h : r' ≠ r) : (w.set r v).get r' = w.get r' := by
  cases r <;> cases r' <;> simp [Quad.get, Quad.set] at h ⊢

/-- The function of the round that step t belongs to (R50, R51). -/
theorem roundFn_stepRow (t : Nat) :
    roundFn (stepRow t).round = if t < 16 then fnF else if t < 32 then fnG else fnH := by
  have hfirst : t / 16 + 1 = 1 ↔ t < 16 := by omega
  change roundFn (t / 16 + 1) = _
  rw [roundFn]
  by_cases h : t < 16
  · rw [if_pos (hfirst.2 h), if_pos h]
  · have hsecond : t / 16 + 1 = 2 ↔ t < 32 := by omega
    rw [if_neg (mt hfirst.1 h), if_neg h]
    simp only [hsecond]

/-- Settles O16: the target gets the rotated sum, and a register other than the target is not set. -/
theorem stepWritesOnlyItsTarget : Obligations.StepWritesOnlyItsTarget := by
  refine fun X w t _ => ⟨rfl, ?_, fun r hr => get_set_of_ne w _ hr⟩
  rw [stepWork, get_set_same, stepSum, roundFn_stepRow]

/-! ### The 48 steps -/

theorem runSteps_zero (X : List Word) (w : Quad) : runSteps X w 0 = w := rfl

theorem runSteps_succ (X : List Word) (w : Quad) (n : Nat) :
    runSteps X w (n + 1) = stepWork X (runSteps X w n) n := by
  rw [runSteps, List.range_succ, List.foldl_concat]
  rfl

/-- Settles O17: the steps are a fold over the step numbers, and the commit adds word by word. -/
theorem compressIsLoadStepsCommit : Obligations.CompressIsLoadStepsCommit := by
  refine fun acc X => ⟨runSteps_zero X acc, runSteps_succ X acc, ?_, ?_, ?_, ?_⟩ <;> rw [compress_eq, Quad.add]

/-! ### The rotating queue -/

/-- CYCLE has period 4, so it reads the step number as it reads the step's place in its round. -/
theorem cycle_mod_sixteen (t : Nat) : cycle (t % 16) = cycle t := by
  simp only [cycle, Nat.mod_mod_of_dvd t (show 4 ∣ 16 by decide)]

theorem stepRow_tgt (t : Nat) : (stepRow t).tgt = (cycle t).1 := congrArg (·.1) (cycle_mod_sixteen t)
theorem stepRow_r1 (t : Nat) : (stepRow t).r1 = (cycle t).2.1 := congrArg (·.2.1) (cycle_mod_sixteen t)
theorem stepRow_r2 (t : Nat) : (stepRow t).r2 = (cycle t).2.2.1 := congrArg (·.2.2.1) (cycle_mod_sixteen t)
theorem stepRow_r3 (t : Nat) : (stepRow t).r3 = (cycle t).2.2.2 := congrArg (·.2.2.2) (cycle_mod_sixteen t)

/-- The next step's registers are this one's, rotated: its last argument is the next target. -/
theorem cycle_succ (t : Nat) : cycle (t + 1) = ((cycle t).2.2.2, (cycle t).1, (cycle t).2.1, (cycle t).2.2.1) := by
  have hcases : t % 4 = 0 ∨ t % 4 = 1 ∨ t % 4 = 2 ∨ t % 4 = 3 := by omega
  rcases hcases with h | h | h | h <;> simp [cycle, Nat.add_mod, h]

/-- No step reads its target as an argument. -/
theorem cycle_args_ne_tgt (t : Nat) :
    (cycle t).2.1 ≠ (cycle t).1 ∧ (cycle t).2.2.1 ≠ (cycle t).1 ∧ (cycle t).2.2.2 ≠ (cycle t).1 := by
  unfold cycle
  split_ifs <;> decide

/-- The queue that stands for the working registers w before step t: the step's target and its three arguments, in
CYCLE's order (R48, R54). -/
def queueOf (t : Nat) (w : Quad) : Quad :=
  ⟨w.get (cycle t).1, w.get (cycle t).2.1, w.get (cycle t).2.2.1, w.get (cycle t).2.2.2⟩

/-- Before every fourth step the queue holds a, b, c, d in order. -/
theorem queueOf_four_mul (k : Nat) (w : Quad) : queueOf (4 * k) w = w := by
  have hcycle : cycle (4 * k) = (.a, .b, .c, .d) := by simp [cycle]
  rw [queueOf, hcycle]
  rfl

/-- The queue's step computes the step's rotated sum and moves the arguments on. -/
theorem queueStep_eq (X : List Word) (t : Nat) (w : Quad) :
    queueStep X (queueOf t w) t =
      ⟨w.get (cycle t).2.2.2, rotl32 (stepSum X w (stepRow t)) (stepRow t).s, w.get (cycle t).2.1,
        w.get (cycle t).2.2.1⟩ := by
  rw [stepSum, stepRow_tgt, stepRow_r1, stepRow_r2, stepRow_r3]
  rfl

/-- A step of the queue is a step of the working registers: the rotation renames the registers as CYCLE does (R54). -/
theorem queueStep_queueOf (X : List Word) (t : Nat) (w : Quad) :
    queueStep X (queueOf t w) t = queueOf (t + 1) (stepWork X w t) := by
  obtain ⟨h1, h2, h3⟩ := cycle_args_ne_tgt t
  rw [queueStep_eq, queueOf, cycle_succ, stepWork, stepRow_tgt]
  simp only [get_set_same, get_set_of_ne w _ h1, get_set_of_ne w _ h2, get_set_of_ne w _ h3]

theorem foldl_queueStep_eq (X : List Word) (w : Quad) (n : Nat) :
    (List.range n).foldl (queueStep X) w = queueOf n (runSteps X w n) := by
  induction n with
  | zero => rfl
  | succ n ih => rw [List.range_succ, List.foldl_concat, ih, queueStep_queueOf, runSteps_succ]

/-- Settles O18: the queue holds the renamed working registers after every step, and the names return after four. -/
theorem queueDatapathEqualsCompress : Obligations.QueueDatapathEqualsCompress := by
  intro acc X
  have fourth : ∀ k, (List.range (4 * k)).foldl (queueStep X) acc = runSteps X acc (4 * k) := fun k => by
    rw [foldl_queueStep_eq, queueOf_four_mul]
  exact ⟨fun k _ => fourth k, by rw [compressQueue, compress_eq, fourth 12]⟩

/-! ### Acceptance of a command word (R65) -/

theorem exec_stCmd_of_busy (w : Word) {s : State} (hb : s.busy = true) :
    exec (.stCmd w) s = .fault (.busyAccess (accessOf (.stCmd w))) :=
  whenIdle_busy hb

/-- A command that needs a computation in progress is refused where there is none. -/
theorem exec_stCmd_badPhase {w : Word} {i : Instr} {s : State} (hb : s.busy = false) (hd : decodeCommand w = .ok i)
    (hi : needsRunning i = true) (hp : s.phase.running = false) :
    exec (.stCmd w) s = .fault (.badPhase (accessOf (.stCmd w)) s.phase) := by
  change whenIdle _ s _ = _
  rw [whenIdle_idle hb, hd]
  simp [hi, hp]

theorem exec_stCmd_accept {w : Word} {i : Instr} {s : State} (hb : s.busy = false) (hd : decodeCommand w = .ok i)
    (hi : needsRunning i = true → s.phase.running = true) : exec (.stCmd w) s = .next (s.accept w) :=
  exec_stCmd_eq_next.2 ⟨hb, ⟨i, hd, hi⟩, rfl⟩

theorem running_iff (p : Phase) : p.running = true ↔ p = .inited ∨ p = .accum := by
  cases p <;> decide

theorem not_running_iff (p : Phase) : p.running = false ↔ p = .uninit ∨ p = .final := by
  cases p <;> decide

/-! ### INIT -/

/-- Settles O20: INIT's one transition, and its word's acceptance, which needs no phase. -/
theorem initStartsAFreshComputation : Obligations.InitStartsAFreshComputation := by
  have hd : decodeCommand 0x00000001 = .ok .init := by decide
  refine fun s => ⟨⟨_, exec_init_eq_next.2 rfl, ?_⟩, hd, fun hb => exec_stCmd_accept hb hd nofun, exec_stCmd_of_busy _⟩
  simp [iv, atRest, sameRun]

/-! ### COMPRESS -/

/-- MSG's block is not whole where some byte has VALID = 0. -/
theorem block_eq_none_iff (s : State) : s.block = none ↔ ∃ i, i < 64 ∧ s.valid i = false := by
  rw [block_eq, ← Option.not_isSome_iff_eq_none, load_isSome_iff]
  simp [State.valid]

theorem exec_compress_of_unwritten {s : State} (h : s.block = none) :
    exec .compress s = .fault (.unwrittenMsg (.command s.pcmd) (Memory.unwritten s.mem 0 64)) := by
  change andThen (compressMsg s) _ = _
  rw [compressMsg, h]
  rfl

/-- The bytes of a command's reading that UnwrittenMsg records are those below n with VALID = 0. -/
theorem mem_unwritten_zero_iff (s : State) (n j : Nat) :
    j ∈ Memory.unwritten s.mem 0 n ↔ j < n ∧ s.valid j = false := by
  simp [mem_unwritten_iff, State.valid]

/-- Settles O21: completion by whether the block is written, acceptance by PHASE. -/
theorem compressMixesOneBlock : Obligations.CompressMixesOneBlock := by
  have hd : decodeCommand 0x00000002 = .ok .compress := by decide
  refine fun s => ⟨fun bs hbs => ⟨_, exec_compress_eq_next.2 ⟨bs, hbs, rfl⟩, ?_⟩, fun h => ?_, fun hb hp => ?_, hd,
    fun hb hp => ?_⟩
  · simp [atRest, sameRun]
  · exact ⟨_, exec_compress_of_unwritten ((block_eq_none_iff s).2 h), mem_unwritten_zero_iff s 64⟩
  · exact exec_stCmd_badPhase hb hd rfl ((not_running_iff _).2 hp)
  · exact exec_stCmd_accept hb hd fun _ => (running_iff _).2 hp

end Sys2Proof.Proofs

/-! # Proofs about the padding (41_padding.md): FINAL and the length field -/

namespace Sys2Proof.Proofs

open Sys2Proof.Machine Sys2Proof.Safety Sys2Proof.Laws

/-! ### The length field -/

theorem bitLength_toNat (c : Count) : (bitLength c).toNat = 8 * c.toNat % 2 ^ 64 := by
  rw [bitLength, BitVec.toNat_shiftLeft, Nat.shiftLeft_eq, Nat.mul_comm]

/-- Settles O25: the shift as a concatenation and as a product, and LEN's bytes where they are stored. -/
theorem lengthFieldIsTheBitCount : Obligations.LengthFieldIsTheBitCount := by
  refine ⟨fun c => ⟨BitVec.shiftLeft_eq_concat_of_lt (by decide), bitLength_toNat c, fun hc => ?_⟩, fun s i hi => ?_,
    by decide, by decide⟩
  · rw [bitLength_toNat, Nat.mod_eq_of_lt (by omega)]
  · rw [writeLength_mem, lookup_store, bytesLe64_length, if_pos (by simp only [msgBase]; omega),
      show 0x40 + (56 + i) - (msgBase + 56) = i by simp only [msgBase]; omega, bytesLe64_getElem? _ hi]

/-! ### What FINAL leaves outside MSG -/

/-- A store inside MSG leaves every offset outside it. -/
theorem lookup_store_outside_msg {m : Memory} {lo a : Nat} {bs : List Byte} (hlo : msgBase ≤ lo)
    (hhi : lo + bs.length ≤ msgEnd) (ha : a < msgBase ∨ msgEnd ≤ a) :
    Memory.lookup (Memory.store m lo bs) a = Memory.lookup m a := by
  rw [lookup_store, if_neg (by omega)]

theorem lookup_padMsg_outside {n a : Nat} (s : State) (hn : n < 64) (ha : a < msgBase ∨ msgEnd ≤ a) :
    Memory.lookup (padMsg n s).mem a = Memory.lookup s.mem a :=
  lookup_store_outside_msg (by omega) (by simp [msgBase, msgEnd]; omega) ha

theorem lookup_clearMsg_outside {a : Nat} (s : State) (ha : a < msgBase ∨ msgEnd ≤ a) :
    Memory.lookup (clearMsg s).mem a = Memory.lookup s.mem a := by
  rw [clearMsg_mem]
  exact lookup_store_outside_msg (by omega) (by simp [msgBase, msgEnd]) ha

theorem lookup_writeLength_outside {a : Nat} (s : State) (ha : a < msgBase ∨ msgEnd ≤ a) :
    Memory.lookup (writeLength s).mem a = Memory.lookup s.mem a :=
  lookup_store_outside_msg (by omega) (by simp [msgBase, msgEnd]) ha

theorem lookup_overflow_outside {n a : Nat} {s t : State} (h : overflow n s = .next t)
    (ha : a < msgBase ∨ msgEnd ≤ a) : Memory.lookup t.mem a = Memory.lookup s.mem a := by
  rcases overflow_eq_next.1 h with ⟨-, rfl⟩ | ⟨-, bs, -, rfl⟩
  · rfl
  · rw [lookup_clearMsg_outside _ ha, commit_mem]

theorem exec_final_lookup_outside {rem : BitVec 6} {s t : State} (h : exec (.final rem) s = .next t) {a : Nat}
    (ha : a < msgBase ∨ msgEnd ≤ a) : Memory.lookup t.mem a = Memory.lookup s.mem a := by
  obtain ⟨_, u, bs, hu, _, rfl⟩ := exec_final_eq_next.1 h
  calc Memory.lookup (writeLength u).mem a
    _ = Memory.lookup u.mem a := lookup_writeLength_outside u ha
    _ = Memory.lookup (padMsg rem.toNat s).mem a := lookup_overflow_outside hu ha
    _ = Memory.lookup s.mem a := lookup_padMsg_outside s rem.isLt ha

theorem exec_final_atRest {rem : BitVec 6} {s t : State} (h : exec (.final rem) s = .next t) : atRest t := by
  obtain ⟨_, u, bs, -, -, rfl⟩ := exec_final_eq_next.1 h
  exact ⟨endFinal_busy _, endFinal_seq _⟩

/-! ### The blocks FINAL compresses -/

/-- A written block is one whose 64 bytes are VALID. -/
theorem valid_of_block {s : State} {bs : List Byte} (h : s.block = some bs) {i : Nat} (hi : i < 64) :
    s.valid i = true :=
  (load_isSome_iff s.mem msgBase 64).1 (Option.isSome_of_eq_some h) i hi

/-- Where no second block is needed LEN follows PAD (R58). -/
theorem overflow_padMsg_of_le {n : Nat} (s : State) (hn : n ≤ 55) : overflow n (padMsg n s) = .next (padMsg n s) :=
  overflow_eq_next.2 (.inl ⟨by omega, rfl⟩)

/-- Where a second block is needed the padded first one is compressed and MSG cleared (R59). -/
theorem overflow_padMsg_of_ge {s : State} {n : Nat} {tail : List Byte}
    (hl : Memory.load s.mem msgBase n = some tail) (h56 : 56 ≤ n) (hn : n < 64) :
    overflow n (padMsg n s) = .next (clearMsg ((padMsg n s).commit
      (compress s.acc (blockWords (tail ++ 0x80 :: List.replicate (63 - n) 0x00))))) :=
  overflow_eq_next.2 (.inr ⟨h56, _, padMsg_block hl hn, rfl⟩)

/-- The length field's place in the padded remainder holds the padding's last eight zeros. -/
theorem take_padded_remainder {tail : List Byte} {n : Nat} (hlen : tail.length = n) (hn : n ≤ 55) :
    (tail ++ 0x80 :: List.replicate (63 - n) 0x00).take 56 = tail ++ 0x80 :: List.replicate (55 - n) 0x00 := by
  rw [List.take_append, List.take_of_length_le (by omega), hlen, show 56 - n = (55 - n) + 1 by omega,
    List.take_succ_cons, List.take_replicate, Nat.min_eq_left (by omega)]

/-- From the block that PAD and the overflow leave in u, FINAL's last compression is of its first 56 bytes and the length
(R57). -/
theorem exec_final_of_overflow {rem : BitVec 6} {s u : State} {tail bs : List Byte}
    (hl : Memory.load s.mem msgBase rem.toNat = some tail) (hu : overflow rem.toNat (padMsg rem.toNat s) = .next u)
    (hb : u.block = some bs) :
    ∃ t, exec (.final rem) s = .next t ∧
      t.acc = compress u.acc (blockWords (bs.take 56 ++ bytesLe64 (bitLength u.cnt))) ∧
      t.block = some (bs.take 56 ++ bytesLe64 (bitLength u.cnt)) := by
  have hlast := writeLength_block hb
  refine ⟨_, exec_final_eq_next.2 ⟨⟨tail, hl⟩, u, _, hu, hlast, rfl⟩, ?_, ?_⟩
  · rw [endFinal_acc, commit_acc]
  · rw [block_eq, endFinal_mem, commit_mem, ← block_eq, hlast]

theorem exec_final_one_block {rem : BitVec 6} {s : State} {tail : List Byte}
    (hl : Memory.load s.mem msgBase rem.toNat = some tail) (hn : rem.toNat ≤ 55) :
    let one := tail ++ 0x80 :: List.replicate (55 - rem.toNat) 0x00 ++
      bytesLe64 (bitLength (s.cnt + BitVec.ofNat 64 rem.toNat))
    ∃ t, exec (.final rem) s = .next t ∧ t.acc = compress s.acc (blockWords one) ∧ t.block = some one := by
  have h := exec_final_of_overflow hl (overflow_padMsg_of_le s hn) (padMsg_block hl rem.isLt)
  rwa [take_padded_remainder (load_length hl) hn] at h

theorem exec_final_two_blocks {rem : BitVec 6} {s : State} {tail : List Byte}
    (hl : Memory.load s.mem msgBase rem.toNat = some tail) (hn : 56 ≤ rem.toNat) :
    let first := tail ++ 0x80 :: List.replicate (63 - rem.toNat) 0x00
    let second := List.replicate 56 0x00 ++ bytesLe64 (bitLength (s.cnt + BitVec.ofNat 64 rem.toNat))
    ∃ t, exec (.final rem) s = .next t ∧
      t.acc = compress (compress s.acc (blockWords first)) (blockWords second) ∧ t.block = some second := by
  have h := exec_final_of_overflow hl (overflow_padMsg_of_ge hl hn rem.isLt) (clearMsg_block _)
  rwa [List.take_replicate, clearMsg_acc, clearMsg_cnt] at h

/-- Settles O22: the blocks by whether the marker leaves room for the length, and the frame of FINAL. -/
theorem finalPadsAndCompresses : Obligations.FinalPadsAndCompresses := by
  intro s rem tail hl n L one first second
  have hblocks : ∃ t, exec (.final rem) s = .next t ∧
      t.acc = (if n ≤ 55 then compress s.acc (blockWords one)
        else compress (compress s.acc (blockWords first)) (blockWords second)) ∧
      t.block = some (if n ≤ 55 then one else second) := by
    by_cases hn : n ≤ 55
    · simp only [if_pos hn]
      exact exec_final_one_block hl hn
    · simp only [if_neg hn]
      exact exec_final_two_blocks hl (Nat.lt_of_not_le hn)
  obtain ⟨t, ht, hacc, hblock⟩ := hblocks
  obtain ⟨hcnt, hphase, -, hrun⟩ := exec_final_frame ht
  exact ⟨t, ht, hacc, hblock, fun i => valid_of_block hblock, fun a => exec_final_lookup_outside ht, hcnt, hphase,
    exec_final_atRest ht, hrun⟩

/-- Settles O24: the bytes below n decide the remainder, and the remainder decides the blocks. -/
theorem finalReadsOnlyTheRemainder : Obligations.FinalReadsOnlyTheRemainder := by
  intro s t rem m hm ht
  obtain ⟨⟨tail, hl⟩, -⟩ := exec_final_eq_next.1 ht
  obtain ⟨t₁, ht₁, hacc, hblock, -, -, hcnt, -⟩ := finalPadsAndCompresses s rem tail hl
  obtain ⟨t', ht', hacc', hblock', -, -, hcnt', -⟩ :=
    finalPadsAndCompresses { s with mem := m } rem tail ((load_congr hm).trans hl)
  obtain rfl : t₁ = t := Host.Outcome.next.inj (ht₁.symm.trans ht)
  exact ⟨t', ht', hacc'.trans hacc.symm, hcnt'.trans hcnt.symm, hblock'.trans hblock.symm⟩

/-! ### FINAL's faults -/

/-- FINAL n's remainder cannot be loaded where some byte below n has VALID = 0. -/
theorem load_eq_none_iff (s : State) (n : Nat) :
    Memory.load s.mem msgBase n = none ↔ ∃ i, i < n ∧ s.valid i = false := by
  rw [← Option.not_isSome_iff_eq_none, load_isSome_iff]
  simp [State.valid]

theorem exec_final_of_unwritten {rem : BitVec 6} {s : State} (h : Memory.load s.mem msgBase rem.toNat = none) :
    exec (.final rem) s = .fault (.unwrittenMsg (.command s.pcmd) (Memory.unwritten s.mem 0 rem.toNat)) := by
  change execFinal rem s = _
  rw [execFinal, h]
  rfl

theorem opField_commandWord (rem : BitVec 6) (op : BitVec 4) : opField (commandWord rem op) = op := by
  rw [opField, commandWord, BitVec.extractLsb'_cast, BitVec.extractLsb'_append_eq_right]

theorem remField_commandWord (rem : BitVec 6) (op : BitVec 4) : remField (commandWord rem op) = rem := by
  rw [remField, commandWord, BitVec.extractLsb'_cast, BitVec.extractLsb'_append_eq_of_le (Nat.le_refl 4)]
  exact BitVec.extractLsb'_append_eq_right

theorem rsvField_commandWord (rem : BitVec 6) (op : BitVec 4) : rsvField (commandWord rem op) = 0 := by
  rw [rsvField, commandWord, BitVec.extractLsb'_cast, BitVec.extractLsb'_append_eq_of_le (by decide)]
  exact BitVec.extractLsb'_append_eq_left

/-- FINAL n's command word decodes to FINAL n, for every n (R35). -/
theorem decodeCommand_commandWord_final (rem : BitVec 6) : decodeCommand (commandWord rem 0x3) = .ok (.final rem) := by
  rw [decodeCommand, opField_commandWord, remField_commandWord, rsvField_commandWord]
  simp

/-- Settles O23: completion over an unwritten remainder, and acceptance outside a computation. -/
theorem finalStopsOnAnUnwrittenRemainder : Obligations.FinalStopsOnAnUnwrittenRemainder := by
  refine fun s rem => ⟨fun h => ?_, fun hb hp => ?_⟩
  · exact ⟨_, exec_final_of_unwritten ((load_eq_none_iff s _).2 h), mem_unwritten_zero_iff s _⟩
  · exact exec_stCmd_badPhase hb (decodeCommand_commandWord_final rem) rfl ((not_running_iff _).2 hp)

end Sys2Proof.Proofs

/-! # Proofs about the host's accesses (42_register_access.md): the command write, the register reads and MSG -/

namespace Sys2Proof.Proofs

open Sys2Proof.Machine Sys2Proof.Safety Sys2Proof.Laws

/-! ### The access forms' own transactions -/

/-- A well-formed access form's descriptor has the bits that its row of R38 fixes: the table's numbering is the
descriptor's. -/
theorem desc_and_mask {i : Instr} {r : BusRow} (fixed : FixedBits.Statement i) (hi : i.wellFormed = true)
    (hrow : i.row = (r.1.toNat, r.2.toNat)) (hbits : (encode i).tableBits = (accessOf i).desc.toNat) :
    (accessOf i).desc &&& r.2 = r.1 := by
  have h := fixed hi
  rw [hrow, hbits] at h
  exact BitVec.eq_of_toNat_eq ((BitVec.toNat_and ..).trans h)

theorem msgOffset_toNat (i : BitVec 6) : (msgOffset i).toNat = 0x40 + i.toNat := by
  rw [msgOffset, BitVec.toNat_cast, BitVec.toNat_append, ← Nat.shiftLeft_add_eq_or_of_lt i.isLt]
  rfl

theorem accessOf_stCmd_desc (w : Word) : (accessOf (.stCmd w)).desc = 0x300 :=
  (desc_data true .word 0 w 0).trans (by decide)

theorem accessOf_ldCnt_off (h : BitVec 1) : (accessOf (.ldCnt h)).off.toNat = 0x08 + 4 * h.toNat := by
  revert h; decide

theorem accessOf_ldDigest_off (n : BitVec 2) : (accessOf (.ldDigest n)).off.toNat = 0x10 + 4 * n.toNat := by
  revert n; decide

/-! ### ST.CMD -/

/-- A word that is not reserved is one of the three commands, by its OP (R35, R37). -/
theorem decodeCommand_of_not_reserved {w : Word} (hw : ¬ reservedWord w) :
    (w.toNat % 16 = 1 ∧ decodeCommand w = .ok .init) ∨ (w.toNat % 16 = 2 ∧ decodeCommand w = .ok .compress) ∨
      (w.toNat % 16 = 3 ∧ decodeCommand w = .ok (.final (remField w))) := by
  simp only [reservedWord_iff_fields, not_or, not_and, not_not, ne_eq] at hw
  obtain ⟨hrsv, hop, hrem⟩ := hw
  rw [← opField_toNat]
  by_cases h1 : opField w = 1#4
  · have hzero : remField w = 0#6 := by_contra fun h => (hrem h).1 h1
    exact .inl (by simp [decodeCommand, hrsv, h1, hzero])
  by_cases h2 : opField w = 2#4
  · have hzero : remField w = 0#6 := by_contra fun h => (hrem h).2 h2
    exact .inr (.inl (by simp [decodeCommand, hrsv, h2, hzero]))
  exact .inr (.inr (by simp [decodeCommand, hrsv, hop h1 h2]))

/-- COMPRESS and FINAL, OP 2 and 3, are the commands that need a computation in progress (R65). -/
theorem decodeCommand_needsRunning {w : Word} (hw : ¬ reservedWord w) :
    ∃ i, decodeCommand w = .ok i ∧ (needsRunning i = true ↔ w.toNat % 16 = 2 ∨ w.toNat % 16 = 3) := by
  rcases decodeCommand_of_not_reserved hw with ⟨hop, hd⟩ | ⟨hop, hd⟩ | ⟨hop, hd⟩ <;>
    exact ⟨_, hd, by simp [needsRunning, hop]⟩

/-- Settles O32: with BUSY = 0 by what the word decodes to and, where the command needs a computation, by PHASE. -/
theorem stCmdAcceptsOrFaults : Obligations.StCmdAcceptsOrFaults := by
  refine ⟨fun w => ⟨rfl, accessOf_stCmd_desc w⟩, fun w s => exec_stCmd_of_busy w, fun w s hb =>
    ⟨fun hw => exec_stCmd_of_reserved hw hb, fun hw hop hp => ?_, fun hw hok => ?_⟩⟩
  · obtain ⟨i, hd, hi⟩ := decodeCommand_needsRunning hw
    exact exec_stCmd_badPhase hb hd (hi.2 hop) ((not_running_iff _).2 hp)
  · obtain ⟨i, hd, hi⟩ := decodeCommand_needsRunning hw
    refine exec_stCmd_accept hb hd fun hr => (running_iff _).2 (hok.resolve_left fun hinit => ?_)
    have hop := hi.1 hr
    omega

/-! ### LD.DIGEST -/

/-- In FINAL the one command that can be pending is INIT, and it has no micro-state (R17, R65). -/
theorem coherent_final_pending {s : State} (hc : coherent s = true) (hp : s.phase = .final) (hb : s.busy = true) :
    decodeCommand s.pcmd = .ok .init ∧ s.seq = .idle := by
  simp only [coherent, hb, if_true, Bool.and_eq_true] at hc
  obtain ⟨hacc, hseq⟩ := hc
  cases hd : decodeCommand s.pcmd with
  | error e => simp [acceptable, hd] at hacc
  | ok i =>
    rcases decodeCommand_eq_ok hd with rfl | rfl | rfl
    · exact ⟨rfl, by simpa [sequenced, hd] using hseq⟩
    · simp [acceptable, hd, needsRunning, hp, Phase.running] at hacc
    · simp [acceptable, hd, needsRunning, hp, Phase.running] at hacc

/-- INIT's micro-step and its completion are INIT's meaning (R55, R66). -/
theorem engine_of_pending_init {u t : State} (hb : u.busy = true) (hq : u.seq = .idle)
    (hd : decodeCommand u.pcmd = .ok .init) (work : tick u = .next t ∨ complete u = .next t) :
    exec .init u = .next t := by
  rcases work with h | h
  · rw [tick_idle hb hq, startCommand, hd] at h
    exact h
  · simpa [complete, hb, hq, hd] using h

/-- From a coherent state in FINAL the engine's own work is nothing, or completes a pending INIT. -/
theorem engine_of_final {u t : State} (hc : coherent u = true) (hp : u.phase = .final)
    (work : tick u = .next t ∨ complete u = .next t) :
    t = u ∨ (u.busy = true ∧ decodeCommand u.pcmd = .ok .init ∧ t.busy = false) := by
  cases hb : u.busy with
  | false => exact .inl (engine_of_idle hb work)
  | true =>
    obtain ⟨hd, hq⟩ := coherent_final_pending hc hp hb
    exact .inr ⟨rfl, hd, (exec_command_frame rfl (engine_of_pending_init hb hq hd work)).1⟩

/-- R69's stay of the digest, for a step that is no RESET and completes no INIT. -/
theorem step_keeps_digest {s t : State} (hc : coherent s = true) (hp : s.phase = .final) (h : step s = .next t)
    (hreset : ∀ d rest, s.inputs ≠ .reset d :: rest)
    (hinit : s.busy = true → decodeCommand s.pcmd = .ok .init → t.busy = true) : t.phase = .final ∧ t.acc = s.acc := by
  cases step_effect h with
  | access head form effect => exact ⟨effect.keeps.phase.trans hp, effect.keeps.acc⟩
  | reset head effect => exact absurd head (hreset _ _)
  | engine head taken work =>
    have ended : ¬ (s.busy = true ∧ decodeCommand s.pcmd = .ok .init ∧ t.busy = false) := by
      rintro ⟨hb, hd, ht⟩
      simp [hinit hb hd] at ht
    rcases taken with rfl | rfl
    · obtain rfl := (engine_of_final hc hp work).resolve_right ended
      exact ⟨hp, rfl⟩
    · obtain rfl := (engine_of_final (u := s.pop) hc hp work).resolve_right ended
      exact ⟨hp, rfl⟩

theorem exec_ldDigest_badPhase (n : BitVec 2) {s : State} (hb : s.busy = false) (hp : s.phase ≠ .final) :
    exec (.ldDigest n) s = .fault (.badPhase (accessOf (.ldDigest n)) s.phase) := by
  change whenIdle _ s _ = _
  rw [whenIdle_idle hb, if_neg hp, raise_eq]

/-- Settles O35: the stay of the digest by what a step can do, and the read by PHASE. -/
theorem digestReadInFinal : Obligations.DigestReadInFinal := by
  refine ⟨fun s t => step_keeps_digest, fun n s hb => ⟨fun hp => ?_, exec_ldDigest_badPhase n hb,
    desc_and_mask (r := rowLdDigest) (FixedBits.ldDigest n) rfl rfl rfl, accessOf_ldDigest_off n⟩⟩
  refine ⟨s.acc.word n, exec_ldDigest_eq_next.2 ⟨hb, hp, rfl⟩, ?_, ?_, ?_, ?_⟩ <;>
    · rintro rfl
      rfl

/-! ### ST.MSG -/

/-- An aligned store with BUSY = 0 writes the bytes that it names, and nothing else (R70). -/
theorem storeMsg_writes {a : Access} {i : BitVec 6} {s : State} (hi : alignedIndex a.size.bytes i = true)
    (hb : s.busy = false) :
    ∃ t, storeMsg a i s = .next t ∧ t = { s with mem := t.mem } ∧
      (∀ b, b < a.size.bytes →
        Memory.lookup t.mem (0x40 + (i.toNat + b)) = some (a.data.extractLsb' (8 * b) 8)) ∧
      ∀ x, (x < 0x40 + i.toNat ∨ 0x40 + i.toNat + a.size.bytes ≤ x) →
        Memory.lookup t.mem x = Memory.lookup s.mem x := by
  refine ⟨_, storeMsg_eq_next.2 ⟨hi, hb, rfl⟩, rfl, fun b hlt => ?_, fun x hx => lookup_store_outside _ hx⟩
  rw [lookup_store, laneBytes_length, ← Nat.add_assoc, if_pos ⟨Nat.le_add_right .., Nat.add_lt_add_left hlt _⟩,
    show 0x40 + i.toNat + b - (msgBase + i.toNat) = b from Nat.add_sub_cancel_left .., laneBytes_getElem? _ hlt]

/-- Widening a store's data for the bus leaves its bytes. -/
theorem extractLsb'_setWidth_word {n : Nat} (v : BitVec n) (hn : n ≤ 32) (b : Nat) :
    (v.setWidth 32).extractLsb' (8 * b) 8 = v.extractLsb' (8 * b) 8 := by
  refine BitVec.eq_of_getLsbD_eq fun k hk => ?_
  simp only [BitVec.getLsbD_extractLsb', BitVec.getLsbD_setWidth]
  by_cases h : 8 * b + k < 32
  · simp [h]
  · simp [h, BitVec.getLsbD_of_ge v (8 * b + k) (by omega)]

/-- Settles O36: the three forms' transactions, and the store of each. -/
theorem storeWritesItsBytes : Obligations.StoreWritesItsBytes := by
  refine ⟨fun j v => ⟨?_, msgOffset_toNat j, msgOffset_toNat j, msgOffset_toNat j, fun hj => ?_, fun hj => ?_⟩,
    fun j v s hb => ?_, fun j v s hb hj => ?_, fun j v s hb hj => storeMsg_writes hj hb⟩
  · exact desc_and_mask (r := rowStMsgB) (FixedBits.stMsgB j _) (alignedIndex_one j) rfl rfl
  · exact desc_and_mask (r := rowStMsgH) (FixedBits.stMsgH j _) hj rfl rfl
  · exact desc_and_mask (r := rowStMsgW) (FixedBits.stMsgW j _) hj rfl rfl
  · exact ⟨_, exec_stMsgB_of_idle j v hb, rfl, lookup_insert_self .., fun a ha => lookup_insert_ne ha ..⟩
  · obtain ⟨t, ht, hframe, hin, hout⟩ := storeMsg_writes (a := accessOf (.stMsgH j v)) hj hb
    exact ⟨t, ht, hframe, fun b hlt => (hin b hlt).trans (congrArg some (extractLsb'_setWidth_word v (by decide) b)), hout⟩

/-! ### LD.MSG -/

theorem load_succ_of_lookup {m : Memory} {a n : Nat} {b : Byte} {bs : List Byte} (hb : Memory.lookup m a = some b)
    (hbs : Memory.load m (a + 1) n = some bs) : Memory.load m a (n + 1) = some (b :: bs) := by
  rw [Memory.load, hb, hbs]

theorem leValue_one (b : Byte) : leValue [b] = b.setWidth 32 := by
  simp [leValue]

/-- An aligned load of written bytes with BUSY = 0 returns the value they make (R71). -/
theorem loadMsg_returns {a : Access} {i : BitVec 6} {s : State} {bs : List Byte} {v : Word}
    (hi : alignedIndex a.size.bytes i = true) (hb : s.busy = false)
    (hl : Memory.load s.mem (0x40 + i.toNat) a.size.bytes = some bs) (hv : leValue bs = v) :
    loadMsg a i s = .next { s with reads := v :: s.reads } :=
  hv ▸ loadMsg_of_load hi hb hl

/-- Settles O37: the bytes loaded one by one, and their value as a concatenation. -/
theorem loadReturnsItsBytes : Obligations.LoadReturnsItsBytes := by
  refine ⟨fun j s b hb h => ?_, fun j s b0 b1 hb hj h0 h1 => ?_, fun j s b0 b1 b2 b3 hb hj h0 h1 h2 h3 => ?_⟩
  · exact loadMsg_returns (a := accessOf (.ldMsgB j)) (alignedIndex_one j) hb (load_succ_of_lookup h rfl) (leValue_one b)
  · exact loadMsg_returns (a := accessOf (.ldMsgH j)) hj hb (load_succ_of_lookup h0 (load_succ_of_lookup h1 rfl))
      (leValue_cons_of_eq_setWidth b0 (leValue_one b1))
  · exact loadMsg_returns (a := accessOf (.ldMsgW j)) hj hb
      (load_succ_of_lookup h0 (load_succ_of_lookup h1 (load_succ_of_lookup h2 (load_succ_of_lookup h3 rfl))))
      (leValue_four_append b0 b1 b2 b3)

/-- A load at a MSG index fails where some byte it would read has VALID = 0. -/
theorem load_at_index_eq_none_iff (s : State) (i n : Nat) :
    Memory.load s.mem (msgBase + i) n = none ↔ ∃ b, b < n ∧ s.valid (i + b) = false := by
  rw [← Option.not_isSome_iff_eq_none, load_isSome_iff]
  simp [State.valid, Nat.add_assoc]

theorem loadMsg_of_unwritten {a : Access} {i : BitVec 6} {s : State} (hi : alignedIndex a.size.bytes i = true)
    (hb : s.busy = false) (hl : Memory.load s.mem (msgBase + i.toNat) a.size.bytes = none) :
    loadMsg a i s = .fault (.unwrittenMsg (.access a) (Memory.unwritten s.mem i.toNat a.size.bytes)) := by
  rw [loadMsg, whenAligned_true hi, whenIdle_idle hb, hl, raise_eq]

/-- The three forms of LD.MSG are one load, of the size of their transaction, and are well-formed where it is aligned. -/
theorem exec_ldMsg {i : Instr} {j : BitVec 6} (hi : i = .ldMsgB j ∨ i = .ldMsgH j ∨ i = .ldMsgW j) (s : State) :
    exec i s = loadMsg (accessOf i) j s ∧ i.wellFormed = alignedIndex (accessOf i).size.bytes j := by
  rcases hi with rfl | rfl | rfl <;> exact ⟨rfl, rfl⟩

/-- Settles O38: one argument for the three sizes. -/
theorem loadOfAnUnwrittenByteFaults : Obligations.LoadOfAnUnwrittenByteFaults := by
  intro i j s hi hwf hb hunwritten
  obtain ⟨hexec, haligned⟩ := exec_ldMsg hi s
  refine ⟨_, hexec.trans (loadMsg_of_unwritten (haligned ▸ hwf) hb ((load_at_index_eq_none_iff s _ _).2 hunwritten)),
    fun k => ?_⟩
  simp [mem_unwritten_iff, State.valid]

/-! ### LD.STATUS -/

/-- The three fields of `zext_32(PHASE ‖ BUSY)` (R15). -/
theorem status_fields (s : State) :
    s.status.getLsbD 0 = s.busy ∧ s.status.extractLsb' 1 2 = s.phase.code ∧ s.status.extractLsb' 3 29 = 0 := by
  rw [State.status]
  generalize s.phase.code = phase
  generalize s.busy = busy
  revert phase busy
  decide

theorem assertReset_status (s : State) : s.assertReset.status = 0 := by
  rw [State.status, assertReset_phase, assertReset_busy]
  rfl

theorem storeMsg_of_busy {a : Access} {i : BitVec 6} {s : State} (hi : alignedIndex a.size.bytes i = true)
    (hb : s.busy = true) : storeMsg a i s = .fault (.busyAccess a) := by
  rw [storeMsg, whenAligned_true hi, whenIdle_busy hb]

theorem loadMsg_of_busy {a : Access} {i : BitVec 6} {s : State} (hi : alignedIndex a.size.bytes i = true)
    (hb : s.busy = true) : loadMsg a i s = .fault (.busyAccess a) := by
  rw [loadMsg, whenAligned_true hi, whenIdle_busy hb]

/-- R64's guard, form by form: while BUSY = 1 every access form but LD.STATUS faults. -/
theorem exec_access_of_busy {i : Instr} {s : State} (hb : s.busy = true) (hi : isCommand i = false)
    (hwf : i.wellFormed = true) (hn : i ≠ .ldStatus) : exec i s = .fault (.busyAccess (accessOf i)) := by
  cases i with
  | init => cases hi
  | compress => cases hi
  | final rem => cases hi
  | stCmd w => exact exec_stCmd_of_busy w hb
  | ldStatus => exact absurd rfl hn
  | ldCnt half => exact whenIdle_busy hb
  | ldDigest n => exact whenIdle_busy hb
  | stMsgB j d => exact storeMsg_of_busy hwf hb
  | stMsgH j d => exact storeMsg_of_busy hwf hb
  | stMsgW j d => exact storeMsg_of_busy hwf hb
  | ldMsgB j => exact loadMsg_of_busy hwf hb
  | ldMsgH j => exact loadMsg_of_busy hwf hb
  | ldMsgW j => exact loadMsg_of_busy hwf hb

/-- Settles O33: the status word's fields, and R64's guard for every other form. -/
theorem statusReadIsAlwaysLegal : Obligations.StatusReadIsAlwaysLegal := by
  intro s
  obtain ⟨hbusy, hphase, hzero⟩ := status_fields s
  exact ⟨exec_ldStatus_eq_next.2 rfl, hbusy, hphase, hzero, assertReset_status s, rfl,
    fun hb _ => exec_access_of_busy hb⟩

/-! ### LD.CNT -/

theorem exec_ldCnt_of_uninit (h : BitVec 1) {s : State} (hb : s.busy = false) (hp : s.phase = .uninit) :
    exec (.ldCnt h) s = .fault (.badPhase (accessOf (.ldCnt h)) .uninit) := by
  change whenIdle _ s _ = _
  rw [whenIdle_idle hb, if_pos hp, raise_eq, hp]

/-- Settles O34: the read by PHASE, and the descriptor's row. -/
theorem counterReadAfterInit : Obligations.CounterReadAfterInit :=
  fun h _ hb => ⟨fun hp => exec_ldCnt_eq_next.2 ⟨hb, hp, rfl⟩, exec_ldCnt_of_uninit h hb,
    desc_and_mask (r := rowLdCnt) (FixedBits.ldCnt h) rfl rfl rfl, accessOf_ldCnt_off h⟩

end Sys2Proof.Proofs

/-! # Proofs about the exceptions and systems (60_exceptions.md): windows of several instances -/

namespace Sys2Proof.Proofs

open Sys2Proof.Machine Sys2Proof.Safety Sys2Proof.Laws

/-! ### An access in a system of instances -/

/-- An engine hears an access in its window, at its offset, after the events it has. -/
theorem hear_inside {h : Nat} {write : Bool} {size : Size} {address : Nat} {data : Word} {e : Engine} {off : BitVec 7}
    (ho : windowOffset e.base address = some off) : Engine.hear h write size address data e =
      { e with state := { e.state with inputs := e.state.inputs ++ [.access h ⟨write, size, off, data⟩] } } := by
  rw [Engine.hear, accessAt, ho, Option.map_some]

theorem issue_map_base (h : Nat) (write : Bool) (size : Size) (address : Nat) (data : Word) (sys : System) :
    (issue h write size address data sys).map (·.base) = sys.map (·.base) := by
  rw [issue, List.map_map]
  exact List.map_congr_left fun e _ => hear_base h write size address data e

theorem issue_getElem? (h : Nat) (write : Bool) (size : Size) (address : Nat) (data : Word) (sys : System) (l : Nat) :
    (issue h write size address data sys)[l]? = sys[l]?.map (Engine.hear h write size address data) :=
  List.getElem?_map

theorem issue_outside {h : Nat} {write : Bool} {size : Size} {address : Nat} {data : Word} {sys : System}
    (hout : ∀ e ∈ sys, windowOffset e.base address = none) : issue h write size address data sys = sys :=
  (List.map_congr_left fun e he => hear_outside (hout e he)).trans (List.map_id' sys)

/-- Distinct windows: instances with one BASE are one instance. -/
theorem index_eq_of_base_eq {sys : System} (hwf : System.wf sys) {j l : Nat} {e f : Engine} (hj : sys[j]? = some e)
    (hl : sys[l]? = some f) (hbase : e.base = f.base) : j = l := by
  have hlt : j < (sys.map (·.base)).length := by
    rw [List.length_map]
    exact (List.getElem?_eq_some_iff.1 hj).1
  refine (List.getElem?_inj hlt hwf).1 ?_
  rw [List.getElem?_map, List.getElem?_map, hj, hl, Option.map_some, Option.map_some, hbase]

/-- An address in one instance's window lies in no other's (R80). -/
theorem windowOffset_other_eq_none {sys : System} (hwf : System.wf sys) {address j l : Nat} {e f : Engine}
    {off : BitVec 7} (hj : sys[j]? = some e) (ho : windowOffset e.base address = some off) (hl : sys[l]? = some f)
    (hne : l ≠ j) : windowOffset f.base address = none := by
  rw [Option.eq_none_iff_forall_ne_some]
  intro off' ho'
  exact hne (index_eq_of_base_eq hwf hj hl (windowOffset_base_unique ho ho')).symm

/-- Settles O58: the instance at the address hears the access, and windows of distinct BASE do not overlap. -/
theorem accessReachesTheInstanceOfItsWindow : Obligations.AccessReachesTheInstanceOfItsWindow := by
  intro sys h write size address data hwf
  refine ⟨issue_map_base h write size address data sys, fun j e off hj ho => ⟨?_, fun l hne => ?_⟩, issue_outside⟩
  · rw [issue_getElem?, hj, Option.map_some, hear_inside ho]
  · rw [issue_getElem?]
    cases hl : sys[l]? with
    | none => rfl
    | some f => rw [Option.map_some, hear_outside (windowOffset_other_eq_none hwf hj ho hl hne)]

end Sys2Proof.Proofs

/-! # Proofs about reset and hazards (70_reset_and_hazards.md): the order of a run's events, and the busy window -/

namespace Sys2Proof.Proofs

open Sys2Proof.Machine Sys2Proof.Safety Sys2Proof.Laws

/-! ### Which event a step takes -/

theorem step_of_no_event {s : State} (hin : s.inputs = []) : step s = complete s := by
  simp only [step, hin]

theorem step_of_event {s : State} {e : Event} {rest : List Event} (hin : s.inputs = e :: rest) :
    step s = performEvent e s.pop := by
  simp only [step, hin]

theorem resetEvent_inputs {during : Option (Nat × Access)} {s t : State} (h : resetEvent during s = .next t) :
    t.inputs = s.inputs := by
  cases during with
  | none => cases h; rfl
  | some access =>
    obtain ⟨host, a⟩ := access
    rw [resetEvent, claim_eq_next] at h
    obtain ⟨_, hk⟩ := h
    cases hk
    rw [assertReset_inputs, dropAccess]
    split <;> rfl

theorem EngineFrame.inputs {s t : State} (h : EngineFrame s t) : t.inputs = s.inputs := by
  obtain ⟨⟨_, _, _, hinputs⟩, _⟩ := h
  exact hinputs

/-- What an event does leaves the events to come: the step has taken it from their head before. -/
theorem performEvent_inputs {e : Event} {s t : State} (h : performEvent e s = .next t) : t.inputs = s.inputs := by
  cases e with
  | access host a =>
    obtain ⟨_, _, effect⟩ := hostAccess_eq_next h
    exact effect.keeps.inputs
  | complete => exact (complete_frame h).inputs
  | tick => exact (tick_frame h).inputs
  | reset during => exact resetEvent_inputs h

theorem step_inputs {s t : State} (h : step s = .next t) : t.inputs = s.inputs.tail := by
  cases hin : s.inputs with
  | nil =>
    rw [step_of_no_event hin] at h
    exact (complete_frame h).inputs.trans hin
  | cons e rest =>
    rw [step_of_event hin] at h
    rw [performEvent_inputs h, pop_inputs, hin]

theorem advance_inputs {s t : State} (h : advance s = some t) : t.inputs = s.inputs.tail := by
  rcases advance_eq_some.1 h with hn | ⟨f, _, rfl⟩
  · exact step_inputs hn
  · exact afterFault_inputs s f

/-- Each step of the account takes one event, whether it answers or faults; with none left there is none to take. -/
theorem run_inputs {k : Nat} {s t : State} (h : run k s = some t) : t.inputs = s.inputs.drop k := by
  induction k generalizing s with
  | zero => cases h; rfl
  | succ k ih =>
    obtain ⟨u, hu, ht⟩ := run_succ.1 h
    rw [ih ht, advance_inputs hu, List.drop_tail]

/-- Settles O55, which holds however many events are left. -/
theorem runTakesItsEventsInOrder : Obligations.RunTakesItsEventsInOrder :=
  fun _ _ _ _ h => run_inputs h

/-! ### Where BusyAccess cannot be raised -/

/-- The result is no BusyAccess (R74). -/
def NoBusyAccess (o : Result) : Prop := ∀ a, o ≠ .fault (.busyAccess a)

@[simp] theorem noBusyAccess_next (s : State) : NoBusyAccess (.next s) := nofun

@[simp] theorem noBusyAccess_refused (r : Refusal) : NoBusyAccess (.refused r) := nofun

@[simp] theorem noBusyAccess_fault (f : Fault) : NoBusyAccess (.fault f) ↔ ∀ a, f ≠ .busyAccess a := by
  simp [NoBusyAccess]

@[simp] theorem noBusyAccess_raiseUnwritten (s : State) (n : Nat) : NoBusyAccess (raiseUnwritten s n) := nofun

theorem noBusyAccess_ite {c : Prop} [Decidable c] {x y : Result} (hx : NoBusyAccess x) (hy : NoBusyAccess y) :
    NoBusyAccess (if c then x else y) := by
  split <;> assumption

theorem noBusyAccess_andThen {o : Result} {k : State → Result} (ho : NoBusyAccess o) (hk : ∀ s, NoBusyAccess (k s)) :
    NoBusyAccess (andThen o k) := by
  cases o with
  | next s => exact hk s
  | fault f => exact ho
  | refused r => exact noBusyAccess_refused r

theorem noBusyAccess_whenIdle {a : Access} {s : State} {k : Result} (hb : s.busy = false) (hk : NoBusyAccess k) :
    NoBusyAccess (whenIdle a s k) := by
  rwa [whenIdle_idle hb]

theorem noBusyAccess_whenAligned {a : Access} {i : BitVec 6} {k : Result} (hk : NoBusyAccess k) :
    NoBusyAccess (whenAligned a i k) := by
  cases hi : alignedIndex a.size.bytes i with
  | true => rwa [whenAligned_true hi]
  | false => simp [whenAligned_false hi]

/-! The engine's own work: its faults are a command's, never an access's (R77). -/

theorem noBusyAccess_compressMsg (s : State) : NoBusyAccess (compressMsg s) := by
  unfold compressMsg
  split <;> simp

theorem noBusyAccess_overflow (n : Nat) (s : State) : NoBusyAccess (overflow n s) := by
  unfold overflow
  split
  · exact noBusyAccess_andThen (noBusyAccess_compressMsg s) fun _ => noBusyAccess_next _
  · exact noBusyAccess_next s

theorem noBusyAccess_execCompress (s : State) : NoBusyAccess (execCompress s) :=
  noBusyAccess_andThen (noBusyAccess_compressMsg s) fun _ => noBusyAccess_next _

theorem noBusyAccess_execFinal (rem : BitVec 6) (s : State) : NoBusyAccess (execFinal rem s) := by
  unfold execFinal
  split
  · exact noBusyAccess_raiseUnwritten s _
  · exact noBusyAccess_andThen (noBusyAccess_overflow _ _) fun _ =>
      noBusyAccess_andThen (noBusyAccess_compressMsg _) fun _ => noBusyAccess_next _

theorem noBusyAccess_exec_command {i : Instr} (hi : isCommand i = true) (s : State) : NoBusyAccess (exec i s) := by
  cases i with
  | init => exact noBusyAccess_next _
  | compress => exact noBusyAccess_execCompress s
  | final rem => exact noBusyAccess_execFinal rem s
  | _ => cases hi

theorem noBusyAccess_startCommand (s : State) : NoBusyAccess (startCommand s) := by
  unfold startCommand
  split
  · exact noBusyAccess_next _
  · split <;> simp
  · split <;> simp
  · simp

theorem noBusyAccess_tickStep (n : Fin 48) (s : State) : NoBusyAccess (tickStep n s) := by
  unfold tickStep
  split <;> simp

theorem noBusyAccess_tickCommit (s : State) : NoBusyAccess (tickCommit s) := by
  unfold tickCommit
  dsimp only
  split
  · split <;> simp
  · simp

theorem noBusyAccess_tick (s : State) : NoBusyAccess (tick s) := by
  unfold tick
  split
  · split
    · exact noBusyAccess_startCommand s
    · exact noBusyAccess_next _
    · exact noBusyAccess_next _
    · exact noBusyAccess_tickStep _ s
    · exact noBusyAccess_tickCommit s
    · exact noBusyAccess_next _
  · exact noBusyAccess_next s

theorem noBusyAccess_runTicks (k : Nat) (s : State) : NoBusyAccess (runTicks k s) := by
  induction k generalizing s with
  | zero => exact noBusyAccess_next s
  | succ k ih =>
    rw [runTicks]
    split
    · exact noBusyAccess_andThen (noBusyAccess_tick s) ih
    · exact noBusyAccess_next s

theorem noBusyAccess_complete (s : State) : NoBusyAccess (complete s) := by
  unfold complete
  split
  · split
    · split
      · next i hd => exact noBusyAccess_exec_command (decodeCommand_isCommand hd) s
      · simp
    · exact noBusyAccess_runTicks _ s
  · exact noBusyAccess_next s

/-! The host's accesses: with BUSY = 0 none raises it, and LD.STATUS never does (R64). -/

theorem noBusyAccess_storeMsg {a : Access} {i : BitVec 6} {s : State} (hb : s.busy = false) :
    NoBusyAccess (storeMsg a i s) :=
  noBusyAccess_whenAligned (noBusyAccess_whenIdle hb (noBusyAccess_next _))

theorem noBusyAccess_loadMsg {a : Access} {i : BitVec 6} {s : State} (hb : s.busy = false) :
    NoBusyAccess (loadMsg a i s) := by
  refine noBusyAccess_whenAligned (noBusyAccess_whenIdle hb ?_)
  split <;> simp

theorem noBusyAccess_execStCmd {w : Word} {s : State} (hb : s.busy = false) : NoBusyAccess (execStCmd w s) := by
  refine noBusyAccess_whenIdle hb ?_
  split
  · simp
  · split <;> simp

theorem noBusyAccess_exec_of_idle {i : Instr} {s : State} (hb : s.busy = false) : NoBusyAccess (exec i s) := by
  cases i with
  | init => exact noBusyAccess_exec_command rfl s
  | compress => exact noBusyAccess_exec_command rfl s
  | final rem => exact noBusyAccess_exec_command rfl s
  | stCmd w => exact noBusyAccess_execStCmd hb
  | ldStatus => exact noBusyAccess_next _
  | ldCnt half => exact noBusyAccess_whenIdle hb (noBusyAccess_ite nofun nofun)
  | ldDigest n => exact noBusyAccess_whenIdle hb (noBusyAccess_ite nofun nofun)
  | stMsgB j d => exact noBusyAccess_storeMsg hb
  | stMsgH j d => exact noBusyAccess_storeMsg hb
  | stMsgW j d => exact noBusyAccess_storeMsg hb
  | ldMsgB j => exact noBusyAccess_loadMsg hb
  | ldMsgH j => exact noBusyAccess_loadMsg hb
  | ldMsgW j => exact noBusyAccess_loadMsg hb

theorem decodeAccess_statusRead {a : Access} (ha : a.desc = 0x104) : decodeAccess a = .ok .ldStatus :=
  decodeAccess_of_row a (rowLdStatus, .ldStatus) (by simp [accessForms]) (by rw [ha]; rfl)

theorem claim_of_other {h first : Nat} {s : State} {k : State → Result} (hs : s.host = some first) (hne : first ≠ h) :
    claim h s k = .refused (.secondHost first h) := by
  simp [claim, hs, hne]

/-- A transaction that is refused raises nothing. -/
theorem noBusyAccess_claim {h : Nat} {s : State} {k : State → Result}
    (hk : NoBusyAccess (k { s with host := some h })) : NoBusyAccess (claim h s k) := by
  cases hs : s.host with
  | none => rwa [claim_serves (.inl hs)]
  | some first =>
    by_cases heq : first = h
    · subst heq
      rwa [claim_serves (.inr hs)]
    · rw [claim_of_other hs heq]
      exact noBusyAccess_refused _

theorem noBusyAccess_hostAccess {h : Nat} {a : Access} {s : State} (hw : s.busy = true → a.desc = 0x104) :
    NoBusyAccess (hostAccess h a s) := by
  refine noBusyAccess_claim ?_
  rcases Bool.eq_false_or_eq_true s.busy with hb | hb
  · rw [decodeAccess_statusRead (hw hb)]
    exact noBusyAccess_next _
  · split
    · exact noBusyAccess_exec_of_idle hb
    · simp

theorem noBusyAccess_resetEvent (during : Option (Nat × Access)) (s : State) : NoBusyAccess (resetEvent during s) := by
  cases during with
  | none => exact noBusyAccess_next _
  | some access =>
    rw [resetEvent]
    exact noBusyAccess_claim (noBusyAccess_next _)

/-! ### The busy window -/

/-- Where the host keeps the window while BUSY = 1, the next step raises no BusyAccess. -/
theorem noBusyAccess_step {s : State} (hw : s.busy = true → onlyStatus s = true) : NoBusyAccess (step s) := by
  cases hin : s.inputs with
  | nil => rw [step_of_no_event hin]; exact noBusyAccess_complete s
  | cons e rest =>
    rw [step_of_event hin]
    cases e with
    | access h a =>
      refine noBusyAccess_hostAccess fun hb => ?_
      simpa [onlyStatus, hin] using hw hb
    | complete => exact noBusyAccess_complete _
    | tick => exact noBusyAccess_tick _
    | reset during => exact noBusyAccess_resetEvent during _

theorem decodeAccess_stCmd_desc {a : Access} {w : Word} (h : decodeAccess a = .ok (.stCmd w)) : a.desc = 0x300 := by
  obtain ⟨r, hr, hmem⟩ := decodeAccess_mem_accessForms h
  obtain ⟨rfl, _⟩ : r = rowStCmd ∧ w = a.data := by simpa [accessForms] using hmem
  rw [fits_iff] at hr
  exact (BitVec.and_allOnes (x := a.desc)).symm.trans hr

/-- A CMD write opens the window. -/
theorem windowAfter_cmdWrite {s : State} {h : Nat} {a : Access} {rest : List Event} (opened : Bool)
    (hin : s.inputs = .access h a :: rest) (ha : a.desc = 0x300) : windowAfter opened s = true := by
  simp [windowAfter, hin, ha]

/-- With BUSY = 1 only a reset closes the window: a STATUS read returns BUSY = 1. -/
theorem windowAfter_of_busy {s : State} (hb : s.busy = true)
    (hreset : ∀ during rest, s.inputs ≠ .reset during :: rest) : windowAfter true s = true := by
  cases hin : s.inputs with
  | nil => simp [windowAfter, hin]
  | cons e rest =>
    cases e with
    | access h a => simp [windowAfter, hin, hb]
    | complete => simp [windowAfter, hin]
    | tick => simp [windowAfter, hin]
    | reset during => exact absurd hin (hreset during rest)

/-- The window is open whenever BUSY = 1: a step that sets BUSY opens it, and none that leaves BUSY = 1 closes it. -/
theorem window_open_of_busy_step {opened : Bool} {s t : State} (hw : s.busy = true → opened = true)
    (h : step s = .next t) (ht : t.busy = true) : windowAfter opened s = true := by
  cases hb : s.busy with
  | false =>
    obtain ⟨_, _, hset, _⟩ := busyFollowsTheCommand
    obtain ⟨_, a, w, rest, hin, hd, _⟩ := hset s t h hb ht
    exact windowAfter_cmdWrite opened hin (decodeAccess_stCmd_desc hd)
  | true =>
    rw [hw hb]
    refine windowAfter_of_busy hb fun during rest hin => ?_
    rw [step_of_event hin] at h
    obtain ⟨u, rfl, _⟩ := resetEvent_eq_next h
    cases ht

/-- A fault recorded first stays first (R76). -/
theorem run_first_fault {k : Nat} {s t : State} {f : Fault} (h : run k s = some t) (hf : s.faults.head? = some f) :
    t.faults.head? = some f := by
  obtain ⟨_, _, _, hkept⟩ := firstFaultIsKept
  exact hkept k s t f h hf

theorem keepsBusyWindow_succ {k : Nat} {opened : Bool} {s : State} (h : keepsBusyWindow (k + 1) opened s = true) :
    (opened = true → onlyStatus s = true) ∧
      ∀ t, advance s = some t → keepsBusyWindow k (windowAfter opened s) t = true := by
  rw [keepsBusyWindow, Bool.and_eq_true] at h
  obtain ⟨hnow, hlater⟩ := h
  exact ⟨fun ho => by simpa [ho] using hnow, fun t ht => by simpa [ht] using hlater⟩

/-- From a state with FAULT = 0 where the window is open if BUSY = 1, no run that keeps the window records BusyAccess first. -/
theorem run_first_fault_of_keepsBusyWindow {k : Nat} {opened : Bool} {s t : State} (hf : s.faults = [])
    (hw : s.busy = true → opened = true) (hk : keepsBusyWindow k opened s = true) (h : run k s = some t) (a : Access) :
    t.faults.head? ≠ some (.busyAccess a) := by
  induction k generalizing opened s with
  | zero => cases h; simp [hf]
  | succ k ih =>
    obtain ⟨hnow, hlater⟩ := keepsBusyWindow_succ hk
    obtain ⟨u, hu, ht⟩ := run_succ.1 h
    rcases advance_eq_some.1 hu with hn | ⟨f, hfault, rfl⟩
    · exact ih ((step_faults hn).trans hf) (window_open_of_busy_step hw hn) (hlater u hu) ht
    · have hfirst : t.faults.head? = some f := run_first_fault ht (by simp [hf])
      have hnot : NoBusyAccess (step s) := noBusyAccess_step fun hb => hnow (hw hb)
      rw [hfirst]
      rintro ⟨⟩
      exact hnot a hfault

/-- Settles O49: a run that starts with BUSY = 0 and FAULT = 0 starts with the window rightly closed. -/
theorem pollingHostMeetsNoBusyAccess : Obligations.PollingHostMeetsNoBusyAccess := by
  intro k s t hclean hidle hk h a
  exact run_first_fault_of_keepsBusyWindow (List.isEmpty_iff.1 hclean) (by simp [hidle]) hk h a

end Sys2Proof.Proofs

/-! # Proofs about the encoding (30_encoding.md): the decoders and the encoder undo each other -/

namespace Sys2Proof.Proofs

open Sys2Proof.Machine Sys2Proof.Safety Sys2Proof.Laws

/-! ### An instruction's own encoding is decoded to it -/

/-- A MSG form's index is `off[5:0]` of its transaction (R70, R71). -/
theorem extractLsb'_msgOffset (i : BitVec 6) : (msgOffset i).extractLsb' 0 6 = i := by
  rw [msgOffset, BitVec.extractLsb'_cast, BitVec.extractLsb'_append_eq_right]

/-- A narrow store's data is read back from the bus word it was widened to. -/
theorem extractLsb'_setWidth_self {n : Nat} (v : BitVec n) (hn : n ≤ 32) : (v.setWidth 32).extractLsb' 0 n = v := by
  rw [← BitVec.setWidth_eq_extractLsb' hn, BitVec.setWidth_setWidth_of_le v hn, BitVec.setWidth_eq]

/-- An access form stands in R38's table of its own transaction: the operands are read back from the offset and the data. -/
theorem mem_accessForms_accessOf {i : Instr} (hi : isCommand i = false) :
    ∃ r : BusRow, (r, i) ∈ accessForms (accessOf i) ∧ i.row = (r.1.toNat, r.2.toNat) := by
  cases i with
  | init => cases hi
  | compress => cases hi
  | final rem => cases hi
  | stCmd w => exact ⟨rowStCmd, by simp [accessForms, accessOf, encode], rfl⟩
  | ldStatus => exact ⟨rowLdStatus, by simp [accessForms], rfl⟩
  | ldCnt h => exact ⟨rowLdCnt, by revert h; decide, rfl⟩
  | ldDigest n => exact ⟨rowLdDigest, by revert n; decide, rfl⟩
  | stMsgB j d =>
    exact ⟨rowStMsgB, by simp [accessForms, accessOf, encode, extractLsb'_msgOffset, extractLsb'_setWidth_self], rfl⟩
  | stMsgH j d =>
    exact ⟨rowStMsgH, by simp [accessForms, accessOf, encode, extractLsb'_msgOffset, extractLsb'_setWidth_self], rfl⟩
  | stMsgW j d => exact ⟨rowStMsgW, by simp [accessForms, accessOf, encode, extractLsb'_msgOffset], rfl⟩
  | ldMsgB j => exact ⟨rowLdMsgB, by simp [accessForms, accessOf, encode, extractLsb'_msgOffset], rfl⟩
  | ldMsgH j => exact ⟨rowLdMsgH, by simp [accessForms, accessOf, encode, extractLsb'_msgOffset], rfl⟩
  | ldMsgW j => exact ⟨rowLdMsgW, by simp [accessForms, accessOf, encode, extractLsb'_msgOffset], rfl⟩

/-- Every well-formed instruction's encoding has the bits its row fixes (R35, R38). -/
theorem fixedBits : ∀ i : Instr, FixedBits.Statement i
  | .init => FixedBits.init
  | .compress => FixedBits.compress
  | .final rem => FixedBits.final rem
  | .stCmd w => FixedBits.stCmd w
  | .ldStatus => FixedBits.ldStatus
  | .ldCnt h => FixedBits.ldCnt h
  | .ldDigest n => FixedBits.ldDigest n
  | .stMsgB j d => FixedBits.stMsgB j d
  | .stMsgH j d => FixedBits.stMsgH j d
  | .stMsgW j d => FixedBits.stMsgW j d
  | .ldMsgB j => FixedBits.ldMsgB j
  | .ldMsgH j => FixedBits.ldMsgH j
  | .ldMsgW j => FixedBits.ldMsgW j

theorem encode_of_access {i : Instr} (hi : isCommand i = false) : encode i = .access (accessOf i) := by
  cases i with
  | init => cases hi
  | compress => cases hi
  | final rem => cases hi
  | _ => rfl

/-- A well-formed access form's own transaction matches the form's row, so it decodes to the form. -/
theorem decodeAccess_accessOf {i : Instr} (hi : isCommand i = false) (hwf : i.wellFormed = true) :
    decodeAccess (accessOf i) = .ok i := by
  obtain ⟨r, hmem, hrow⟩ := mem_accessForms_accessOf hi
  have hbits : (encode i).tableBits = (accessOf i).desc.toNat := by rw [encode_of_access hi, Wire.tableBits]
  exact decodeAccess_of_row _ _ hmem (desc_and_mask (fixedBits i) hwf hrow hbits)

/-- Settles O1: the commands by their words, the access forms by the rows of R38. -/
theorem decodeOfEncodeIsTheInstruction : Obligations.DecodeOfEncodeIsTheInstruction := by
  intro i hwf
  cases hi : isCommand i with
  | false => rw [encode_of_access hi]; exact decodeAccess_accessOf hi hwf
  | true =>
    cases i with
    | init => decide
    | compress => decide
    | final rem => exact decodeCommand_commandWord_final rem
    | _ => cases hi

/-! ### A command word is the encoding of what it decodes to -/

/-- The number of a command word with RSV = 0 (R34). -/
theorem commandWord_toNat (rem : BitVec 6) (op : BitVec 4) :
    (commandWord rem op).toNat = 16 * rem.toNat + op.toNat := by
  rw [word_fields, rsvField_commandWord, remField_commandWord, opField_commandWord]
  simp

/-- A command that a word decodes to fixes the word's number (R35). -/
theorem decodeCommand_toNat {w : Word} {i : Instr} (h : decodeCommand w = .ok i) :
    (i = .init ∧ w.toNat = 1) ∨ (i = .compress ∧ w.toNat = 2) ∨
      (i = .final (remField w) ∧ w.toNat = 3 + 16 * (remField w).toNat) := by
  have hw : ¬ reservedWord w := fun hr => by
    rw [(decodeCommand_eq_reserved_iff w).2 hr] at h
    cases h
  have hrem := remField_toNat w
  have hcases := decodeCommand_of_not_reserved hw
  simp only [h, Except.ok.injEq] at hcases
  rw [reservedWord] at hw
  rcases hcases with ⟨hop, hi⟩ | ⟨hop, hi⟩ | ⟨hop, hi⟩
  · exact .inl ⟨hi, by omega⟩
  · exact .inr (.inl ⟨hi, by omega⟩)
  · exact .inr (.inr ⟨hi, by omega⟩)

/-- Settles O2: the word and the encoding are one number. -/
theorem encodeOfDecodedCommandIsTheWord : Obligations.EncodeOfDecodedCommandIsTheWord := by
  refine fun w i h => ⟨?_, decodeCommand_isCommand h⟩
  rcases decodeCommand_toNat h with ⟨rfl, hw⟩ | ⟨rfl, hw⟩ | ⟨rfl, hw⟩ <;>
    exact congrArg Wire.command (BitVec.eq_of_toNat_eq (by simp [commandWord_toNat, hw, Nat.add_comm]))

/-- A word with the number of a command's encoding decodes to the command. -/
theorem decodeCommand_of_toNat {w v : Word} {i : Instr} (hv : decodeCommand v = .ok i) (h : w.toNat = v.toNat) :
    decodeCommand w = .ok i :=
  BitVec.eq_of_toNat_eq h ▸ hv

/-- Settles O4: what a word decodes to fixes its number, and each of the numbers is an encoding's. -/
theorem opcodeMapIsExact : Obligations.OpcodeMapIsExact := by
  refine fun w => ⟨⟨fun h => ?_, fun h => ?_⟩, ⟨fun h => ?_, fun h => ?_⟩, fun n => ⟨fun h => ?_, fun h => ?_⟩,
    fun i h => ?_⟩
  · simpa using decodeCommand_toNat h
  · exact decodeCommand_of_toNat (v := 1) (by decide) h
  · simpa using decodeCommand_toNat h
  · exact decodeCommand_of_toNat (v := 2) (by decide) h
  · obtain ⟨rfl, hw⟩ : n = remField w ∧ _ := by simpa using decodeCommand_toNat h
    exact hw
  · refine decodeCommand_of_toNat (decodeCommand_commandWord_final n) ?_
    rw [h, commandWord_toNat, Nat.add_comm]
    rfl
  · exact (decodeCommand_eq_ok h).imp_right (.imp_right fun hi => ⟨_, hi⟩)

/-! ### A transaction has the descriptor and the bytes of what it decodes to -/

/-- A form at a row that a descriptor matches is well-formed and has that descriptor: for each size, over both directions
and the 128 offsets of the window. Neither depends on the data. -/
theorem accessForms_desc (write : Bool) (size : Size) (off : BitVec 7) :
    ∀ p ∈ accessForms ⟨write, size, off, 0⟩, fits (Access.desc ⟨write, size, off, 0⟩) p.1 = true →
      p.2.wellFormed = true ∧ (accessOf p.2).desc = Access.desc ⟨write, size, off, 0⟩ := by
  cases size with
  | byte => revert write off; decide +kernel
  | half => revert write off; decide +kernel
  | word => revert write off; decide +kernel

/-- The descriptor's fields are read back from it (R38). -/
theorem desc_off (a : Access) : a.desc.extractLsb' 0 7 = a.off := by
  rw [Access.desc, BitVec.extractLsb'_cast, BitVec.extractLsb'_append_eq_right]

theorem desc_size (a : Access) : sizeOfCode (a.desc.extractLsb' 7 2) = some a.size := by
  rw [Access.desc, BitVec.extractLsb'_cast, BitVec.extractLsb'_append_eq_of_le (Nat.le_refl 7),
    BitVec.extractLsb'_append_eq_right]
  cases a.size <;> decide

theorem desc_write (a : Access) : a.desc.extractLsb' 9 1 = BitVec.ofBool a.write := by
  rw [Access.desc, BitVec.extractLsb'_cast, BitVec.extractLsb'_append_eq_of_le (by decide)]
  exact BitVec.extractLsb'_append_eq_left

/-- Transactions with one descriptor differ in their data only. -/
theorem desc_inj {a b : Access} (h : a.desc = b.desc) : a.write = b.write ∧ a.size = b.size ∧ a.off = b.off := by
  refine ⟨?_, Option.some.inj ?_, ?_⟩
  · have hbit : BitVec.ofBool a.write = BitVec.ofBool b.write := by rw [← desc_write a, h, desc_write]
    simpa using congrArg (·.getLsbD 0) hbit
  · rw [← desc_size a, h, desc_size]
  · rw [← desc_off a, h, desc_off]

/-- The form with a store's data left out: what a descriptor tells of it. -/
def withoutData : Instr → Instr
  | .stCmd _ => .stCmd 0
  | .stMsgB j _ => .stMsgB j 0
  | .stMsgH j _ => .stMsgH j 0
  | .stMsgW j _ => .stMsgW j 0
  | i => i

theorem wellFormed_withoutData (i : Instr) : (withoutData i).wellFormed = i.wellFormed := by
  cases i <;> rfl

theorem accessOf_withoutData_desc (i : Instr) : (accessOf (withoutData i)).desc = (accessOf i).desc := by
  cases i <;> rfl

/-- A transaction's data is no part of the row it matches, only of the form's data. -/
theorem accessForms_without_data (write : Bool) (size : Size) (off : BitVec 7) (data : Word) :
    accessForms ⟨write, size, off, 0⟩ =
      (accessForms ⟨write, size, off, data⟩).map fun p => (p.1, withoutData p.2) := rfl

/-- What a transaction decodes to is well-formed and has its descriptor. -/
theorem decodeAccess_form {a : Access} {i : Instr} (h : decodeAccess a = .ok i) :
    i.wellFormed = true ∧ (accessOf i).desc = a.desc := by
  obtain ⟨write, size, off, data⟩ := a
  obtain ⟨r, hr, hmem⟩ := decodeAccess_mem_accessForms h
  have hmem₀ : (r, withoutData i) ∈ accessForms ⟨write, size, off, 0⟩ := by
    rw [accessForms_without_data write size off data]
    exact List.mem_map_of_mem hmem
  have key := accessForms_desc write size off _ hmem₀ hr
  rwa [wellFormed_withoutData, accessOf_withoutData_desc] at key

/-- A field of a word, widened again, has the field's bytes. -/
theorem laneBytes_extractLsb' (n : Nat) (v : Word) :
    laneBytes n ((v.extractLsb' 0 (8 * n)).setWidth 32) = laneBytes n v := by
  refine List.map_congr_left fun b hb => BitVec.eq_of_getLsbD_eq fun k hk => ?_
  have hlt : b < n := List.mem_range.1 hb
  simp only [BitVec.getLsbD_extractLsb', BitVec.getLsbD_setWidth, hk, decide_true, Bool.true_and, Nat.zero_add]
  by_cases h32 : 8 * b + k < 32
  · simp [h32, show 8 * b + k < 8 * n by omega]
  · simp [h32, BitVec.getLsbD_of_ge v (8 * b + k) (by omega)]

/-- Every write form of R38's table has its transaction's data, as far as its size goes. -/
theorem accessForms_data (a : Access) : ∀ p ∈ accessForms a, (accessOf p.2).write = true →
    laneBytes (accessOf p.2).size.bytes (accessOf p.2).data = laneBytes (accessOf p.2).size.bytes a.data := by
  simp only [accessForms, List.forall_mem_cons]
  exact ⟨fun _ => rfl, nofun, nofun, nofun, fun _ => laneBytes_extractLsb' 1 a.data,
    fun _ => laneBytes_extractLsb' 2 a.data, fun _ => rfl, nofun, nofun, nofun, nofun⟩

/-- Settles O3: the descriptor by the form's row, and the bytes of a write by its size. -/
theorem encodeOfDecodedAccessIsTheTransaction : Obligations.EncodeOfDecodedAccessIsTheTransaction := by
  intro a i h
  obtain ⟨hwf, hdesc⟩ := decodeAccess_form h
  obtain ⟨hwrite, hsize, -⟩ := desc_inj hdesc
  obtain ⟨r, -, hmem⟩ := decodeAccess_mem_accessForms h
  refine ⟨hwf, decodeAccess_isAccess h, hdesc, fun hw => ?_⟩
  rw [← hsize]
  exact accessForms_data a (r, i) hmem (hwrite.trans hw)

/-- Settles O8: eight words of the tables of R35 and R38. -/
theorem specWordsDecode : Obligations.SpecWordsDecode := by
  refine ⟨?_, ?_, ?_, ?_, ?_, ?_, ?_, ?_⟩ <;> decide

end Sys2Proof.Proofs

/-! # Proofs about the step and the access forms (42_register_access.md): what the next event runs, and the order of the faults -/

namespace Sys2Proof.Proofs

open Sys2Proof.Machine Sys2Proof.Safety Sys2Proof.Laws

/-! ### Dispatch -/

/-- A served transaction performs the form it decodes to, with its host noted (R64, R80). -/
theorem hostAccess_of_form {h : Nat} {a : Access} {i : Instr} {s : State} (hs : serves s h)
    (hd : decodeAccess a = .ok i) : hostAccess h a s = exec i { s with host := some h } := by
  rw [hostAccess, claim_serves hs, hd]

/-- All a transaction can do where it answers: its host is served, and the form it decodes to is performed. -/
theorem hostAccess_eq_next_iff {h : Nat} {a : Access} {s t : State} : hostAccess h a s = .next t ↔
    serves s h ∧ ∃ i, decodeAccess a = .ok i ∧ exec i { s with host := some h } = .next t := by
  rw [hostAccess, claim_eq_next]
  refine and_congr_right fun _ => ?_
  cases decodeAccess a <;> simp

/-- Settles O9: the event taken from the head is a served transaction. -/
theorem stepRunsTheHostsAccess : Obligations.StepRunsTheHostsAccess := by
  intro s h a i rest hin hs hd
  rw [step_of_event hin, performEvent, hostAccess_of_form (s := s.pop) hs hd, State.pop, hin, List.tail_cons]

/-- A completion of a command that is not started performs its meaning (R66). -/
theorem complete_of_not_started {s : State} {i : Instr} (hb : s.busy = true) (hq : s.seq = .idle)
    (hd : decodeCommand s.pcmd = .ok i) : complete s = exec i s := by
  simp only [complete, hb, hq, hd, if_true]

/-- Settles O10: a completion taken from the events, and the engine's own with none left (R86). -/
theorem stepRunsThePendingCommand : Obligations.StepRunsThePendingCommand := by
  refine fun s i rest hb hq hd => ⟨fun hin => ?_, fun hin => ?_⟩
  · rw [step_of_event hin, performEvent, complete_of_not_started (s := s.pop) hb hq hd, State.pop, hin, List.tail_cons]
  · rw [step_of_no_event hin, complete_of_not_started hb hq hd]

/-- An event placed is the one the next step takes. -/
theorem step_push (s : State) (e : Event) : step (s.push e) = performEvent e s :=
  step_of_event (push_inputs s e)

/-- A row of more than 16 bits is a command word, and a shorter one a descriptor. -/
theorem wireOfTable_eq_some {nbits w : Nat} {x : Wire} (h : wireOfTable nbits w = some x) :
    (16 < nbits ∧ x = .command (BitVec.ofNat 32 w)) ∨ (¬ 16 < nbits ∧ ∃ a, x = .access a) := by
  unfold wireOfTable at h
  split at h
  · next hn =>
    split at h <;> cases h
    exact .inl ⟨hn, rfl⟩
  · next hn =>
    split at h
    · dsimp only at h
      split at h <;> cases h
      exact .inr ⟨hn, _, rfl⟩
    · cases h

theorem decodeTableWord_eq_some {nbits w : Nat} {i : Instr} :
    decodeTableWord nbits w = some i ↔ ∃ x, wireOfTable nbits w = some x ∧ decode x = .ok i := by
  unfold decodeTableWord
  cases wireOfTable nbits w with
  | none => simp
  | some x => cases hd : decode x <;> simp [hd]

/-- A placed command word is pending and not started when the next step completes it. -/
theorem step_place_command {s : State} {w : Word} {i : Instr} (hd : decode (.command w) = .ok i) :
    step (s.place (.command w)) = exec i { s with pcmd := w, busy := true, seq := .idle } :=
  (step_push _ _).trans (complete_of_not_started rfl rfl hd)

/-- A placed descriptor's transaction is of the host that the instance serves, or of host 0. -/
theorem step_place_access {s : State} {a : Access} {i : Instr} (hd : decode (.access a) = .ok i) :
    step (s.place (.access a)) = exec i { s with host := some (s.host.getD 0) } := by
  have hs : serves s (s.host.getD 0) := by cases hh : s.host <;> simp [serves, hh]
  exact (step_push _ _).trans (hostAccess_of_form hs hd)

/-- Settles O11: by the two kinds of table word. -/
theorem placedWordRunsNext : Obligations.PlacedWordRunsNext := by
  intro s nbits w i h
  obtain ⟨x, hw, hd⟩ := decodeTableWord_eq_some.1 h
  rw [State.withFetchWord, hw]
  rcases wireOfTable_eq_some hw with ⟨hn, rfl⟩ | ⟨hn, a, rfl⟩
  · rw [if_pos hn]
    exact step_place_command hd
  · rw [if_neg hn]
    exact step_place_access hd

/-- Settles O44: acceptance sets PCMD and BUSY, and a completion performs PCMD. -/
theorem acceptedCommandIsPerformed : Obligations.AcceptedCommandIsPerformed := by
  intro w i s t hrest hd h
  obtain ⟨-, -, rfl⟩ := exec_stCmd_eq_next.1 h
  exact ⟨rfl, complete_of_not_started (accept_busy s w) hrest.2 hd⟩

/-! ### Reads -/

/-- A load reads MSG alone, not the values read before. -/
theorem loadMsg_again {a : Access} {j : BitVec 6} {s t : State} (h : loadMsg a j s = .next t) :
    ∃ v, t = s.reply v ∧ loadMsg a j t = .next (t.reply v) := by
  obtain ⟨hj, hb, bs, hl, rfl⟩ := loadMsg_eq_next.1 h
  exact ⟨_, rfl, loadMsg_of_load hj hb hl⟩

/-- A read that answers returns a value, and the same value when it is performed again. -/
theorem exec_read_again {i : Instr} {s t : State} (hi : isCommand i = false) (read : (accessOf i).write = false)
    (h : exec i s = .next t) : ∃ v, t = s.reply v ∧ exec i t = .next (t.reply v) := by
  cases i with
  | init => cases hi
  | compress => cases hi
  | final rem => cases hi
  | stCmd w => cases read
  | stMsgB j d => cases read
  | stMsgH j d => cases read
  | stMsgW j d => cases read
  | ldStatus => obtain rfl := exec_ldStatus_eq_next.1 h; exact ⟨_, rfl, rfl⟩
  | ldCnt half =>
    obtain ⟨hb, hp, rfl⟩ := exec_ldCnt_eq_next.1 h
    exact ⟨_, rfl, exec_ldCnt_eq_next.2 ⟨hb, hp, rfl⟩⟩
  | ldDigest n =>
    obtain ⟨hb, hp, rfl⟩ := exec_ldDigest_eq_next.1 h
    exact ⟨_, rfl, exec_ldDigest_eq_next.2 ⟨hb, hp, rfl⟩⟩
  | ldMsgB j => exact loadMsg_again h
  | ldMsgH j => exact loadMsg_again h
  | ldMsgW j => exact loadMsg_again h

/-- Settles O42: a read's reply is all it does. -/
theorem readsHaveNoSideEffects : Obligations.ReadsHaveNoSideEffects := by
  intro i s t hi read h
  obtain ⟨v, rfl, again⟩ := exec_read_again hi read h
  exact ⟨v, rfl, again⟩

/-! ### Faults -/

theorem storeMsg_of_misaligned {a : Access} {j : BitVec 6} {s : State} (hj : alignedIndex a.size.bytes j = false) :
    storeMsg a j s = .fault (.badAccess a) :=
  whenAligned_false hj

theorem loadMsg_of_misaligned {a : Access} {j : BitVec 6} {s : State} (hj : alignedIndex a.size.bytes j = false) :
    loadMsg a j s = .fault (.badAccess a) :=
  whenAligned_false hj

/-- Settles O40: the ill-formed instructions are the MSG forms with a misaligned index. -/
theorem misalignedFormsFault : Obligations.MisalignedFormsFault := by
  intro i s hwf
  cases i with
  | stMsgB j d => exact storeMsg_of_misaligned hwf
  | stMsgH j d => exact storeMsg_of_misaligned hwf
  | stMsgW j d => exact storeMsg_of_misaligned hwf
  | ldMsgB j => exact loadMsg_of_misaligned hwf
  | ldMsgH j => exact loadMsg_of_misaligned hwf
  | ldMsgW j => exact loadMsg_of_misaligned hwf
  | _ => cases hwf

/-- Settles O41: LD.STATUS looks at no guard, and every other form at R64's. -/
theorem busyWindowAdmitsOnlyStatus : Obligations.BusyWindowAdmitsOnlyStatus := by
  refine fun i s hb hi hwf => ⟨?_, exec_access_of_busy hb hi hwf⟩
  rintro rfl
  exact ⟨_, exec_ldStatus_eq_next.2 rfl⟩

/-- With BUSY = 1 an allowed transaction other than a STATUS read raises BusyAccess, whatever else it would raise (R77). -/
theorem hostAccess_of_busy {h : Nat} {a : Access} {s : State} (hs : serves s h) (ha : allowedAccess a)
    (hb : s.busy = true) (hn : a.desc ≠ 0x104) : ∃ b, hostAccess h a s = .fault (.busyAccess b) ∧ b.desc = a.desc := by
  obtain ⟨i, hd⟩ := (decodeAccess_isOk_iff a).2 ((row_fits_iff_allowedAccess a).2 ha)
  obtain ⟨hwf, hdesc⟩ := decodeAccess_form hd
  have hi : i ≠ .ldStatus := by
    rintro rfl
    exact hn hdesc.symm
  refine ⟨accessOf i, ?_, hdesc⟩
  rw [hostAccess_of_form hs hd]
  exact exec_access_of_busy hb (decodeAccess_isAccess hd) hwf hi

theorem decodeAccess_cmdWrite {a : Access} (ha : a.desc = 0x300) : decodeAccess a = .ok (.stCmd a.data) :=
  decodeAccess_of_row a (rowStCmd, .stCmd a.data) (by simp [accessForms]) (by simp [ha, rowStCmd])

/-- A CMD write is the transaction of ST.CMD of its data. -/
theorem accessOf_cmdWrite {a : Access} (ha : a.desc = 0x300) : accessOf (.stCmd a.data) = a := by
  obtain ⟨hwrite, hsize, hoff⟩ := desc_inj (ha.trans (accessOf_stCmd_desc a.data).symm)
  cases a
  simp_all [accessOf, encode]

/-- Settles O43: the checks stand in R77's order, before the form is performed and in it. -/
theorem faultsAreReportedInOrder : Obligations.FaultsAreReportedInOrder := by
  intro h a s hs
  refine ⟨fun ha => hostAccess_of_not_allowed ha hs, hostAccess_of_busy hs, fun ha hb hw => ?_, fun ha hb hw hop hp => ?_⟩
  · rw [hostAccess_of_form hs (decodeAccess_cmdWrite ha)]
    exact exec_stCmd_of_reserved hw hb
  · obtain ⟨i, hd, hi⟩ := decodeCommand_needsRunning hw
    have hrun : needsRunning i = true := hi.2 (by rw [reservedWord] at hw; omega)
    have hfault := exec_stCmd_badPhase (s := { s with host := some h }) hb hd hrun hp
    rwa [accessOf_cmdWrite ha, ← hostAccess_of_form hs (decodeAccess_cmdWrite ha)] at hfault

end Sys2Proof.Proofs

/-! # Proofs about the invariants (10_state.md, 20_memory.md): the block buffer's canonical form -/

namespace Sys2Proof.Proofs

open Sys2Proof.Machine Sys2Proof.Safety Sys2Proof.Laws

/-! ### The stores of the access forms and of the commands -/

/-- A well-formed store's bytes lie inside MSG (R28). -/
theorem storeIndex_room {i : Instr} {j : BitVec 6} (index : storeIndex i = some j) (hwf : i.wellFormed = true) :
    j.toNat + (accessOf i).size.bytes ≤ 64 := by
  cases i with
  | stMsgB => cases index; exact alignedIndex_room .byte hwf
  | stMsgH => cases index; exact alignedIndex_room .half hwf
  | stMsgW => cases index; exact alignedIndex_room .word hwf
  | _ => cases index

/-- A store of at most 64 - n bytes at MSG[n] keeps the canonical form. -/
theorem wf_store_at_index {n : Nat} {bs : List Byte} {m : Memory} (room : n + bs.length ≤ 64)
    (hm : Memory.wf m = true) : Memory.wf (Memory.store m (msgBase + n) bs) = true :=
  wf_store (Nat.le_add_right ..) (by simp only [msgBase, msgEnd]; omega) hm

theorem AccessEffect.wf {i : Instr} {s t : State} (e : AccessEffect s i t) (hwf : i.wellFormed = true)
    (hm : Memory.wf s.mem = true) : Memory.wf t.mem = true := by
  cases e with
  | accept w idle => exact hm
  | reply i v read => exact hm
  | store i j index idle =>
    exact wf_store_at_index (by rw [laneBytes_length]; exact storeIndex_room index hwf) hm

theorem wf_padMsg {n : Nat} {s : State} (hn : n < 64) (hm : Memory.wf s.mem = true) : Memory.wf (padMsg n s).mem = true := by
  rw [padMsg_mem]
  exact wf_store_at_index (by rw [List.length_cons, List.length_replicate]; omega) hm

theorem wf_clearMsg {s : State} (hm : Memory.wf s.mem = true) : Memory.wf (clearMsg s).mem = true := by
  rw [clearMsg_mem]
  exact wf_store_at_index (n := 0) (by rw [List.length_replicate]) hm

theorem wf_writeLength {s : State} (hm : Memory.wf s.mem = true) : Memory.wf (writeLength s).mem = true := by
  rw [writeLength_mem]
  exact wf_store_at_index (by rw [bytesLe64_length]) hm

theorem wf_overflow {n : Nat} {s t : State} (h : overflow n s = .next t) (hm : Memory.wf s.mem = true) :
    Memory.wf t.mem = true := by
  rcases overflow_eq_next.1 h with ⟨-, rfl⟩ | ⟨-, bs, -, rfl⟩
  · exact hm
  · exact wf_clearMsg (by rwa [commit_mem])

/-! ### The engine's own work -/

theorem wf_exec_command {i : Instr} {s t : State} (hi : isCommand i = true) (h : exec i s = .next t)
    (hm : Memory.wf s.mem = true) : Memory.wf t.mem = true := by
  cases i with
  | init => obtain rfl := exec_init_eq_next.1 h; exact hm
  | compress => obtain ⟨bs, -, rfl⟩ := exec_compress_eq_next.1 h; rwa [endCompress_mem, commit_mem]
  | final rem =>
    obtain ⟨-, u, bs, hu, -, rfl⟩ := exec_final_eq_next.1 h
    rw [endFinal_mem, commit_mem]
    exact wf_writeLength (wf_overflow hu (wf_padMsg rem.isLt hm))
  | _ => cases hi

theorem wf_startCommand {s t : State} (h : startCommand s = .next t) (hm : Memory.wf s.mem = true) :
    Memory.wf t.mem = true := by
  rcases startCommand_eq_next h with h | rfl | rfl
  · exact wf_exec_command rfl h hm
  · exact hm
  · exact hm

theorem wf_tickPad {s : State} (hm : Memory.wf s.mem = true) : Memory.wf (tickPad s).mem = true := by
  have hpad := wf_padMsg (n := pendingRem s) (remField s.pcmd).isLt hm
  unfold tickPad
  split <;> exact hpad

/-- STEP(t) only reads MSG (R50). -/
theorem tickStep_mem {n : Fin 48} {s t : State} (h : tickStep n s = .next t) : t.mem = s.mem := by
  unfold tickStep at h
  split at h
  · cases h
  · obtain rfl := Host.Outcome.next.inj h
    rfl

/-- All COMMIT can do where it answers: it ends a COMPRESS or a FINAL, or, after the first of FINAL's two compressions, clears
MSG for the second. -/
theorem tickCommit_eq_next {s t : State} (h : tickCommit s = .next t) :
    t = endCompress (s.commit (s.acc.add s.work)) ∨ t = endFinal (s.commit (s.acc.add s.work)) ∨
      t = (clearMsg (s.commit (s.acc.add s.work))).enter .len := by
  unfold tickCommit at h
  dsimp only at h
  split at h
  · split at h
    · exact .inl (Host.Outcome.next.inj h).symm
    · exact .inr (.inl (Host.Outcome.next.inj h).symm)
    · cases h
  · exact .inr (.inr (Host.Outcome.next.inj h).symm)

theorem wf_tickCommit {s t : State} (h : tickCommit s = .next t) (hm : Memory.wf s.mem = true) :
    Memory.wf t.mem = true := by
  rcases tickCommit_eq_next h with rfl | rfl | rfl
  · rwa [endCompress_mem, commit_mem]
  · rwa [endFinal_mem, commit_mem]
  · rw [enter_mem]
    exact wf_clearMsg (by rwa [commit_mem])

theorem wf_tick {s t : State} (hm : Memory.wf s.mem = true) (h : tick s = .next t) : Memory.wf t.mem = true := by
  cases hb : s.busy with
  | false =>
    rw [tick_of_idle hb] at h
    cases h
    exact hm
  | true =>
    simp only [tick, hb, if_true] at h
    split at h
    · exact wf_startCommand h hm
    · cases h; exact wf_tickPad hm
    · cases h; exact hm
    · rwa [tickStep_mem h]
    · exact wf_tickCommit h hm
    · cases h; exact wf_writeLength hm

/-- What every micro-step keeps, a run of micro-steps keeps. -/
theorem runTicks_keeps {P : State → Prop} (keeps : ∀ {s t}, P s → tick s = .next t → P t) {k : Nat} {s t : State}
    (hs : P s) (h : runTicks k s = .next t) : P t := by
  induction k generalizing s with
  | zero => cases h; exact hs
  | succ k ih =>
    rw [runTicks] at h
    split at h
    · obtain ⟨u, hu, ht⟩ := andThen_eq_next.1 h
      exact ih (keeps hs hu) ht
    · cases h; exact hs

theorem wf_complete {s t : State} (hm : Memory.wf s.mem = true) (h : complete s = .next t) : Memory.wf t.mem = true := by
  unfold complete at h
  split at h
  · split at h
    · split at h
      · next i hd => exact wf_exec_command (decodeCommand_isCommand hd) h hm
      · cases h
    · exact runTicks_keeps (P := fun s => Memory.wf s.mem = true) wf_tick hm h
  · cases h; exact hm

/-- Settles O59: a store form's bytes lie inside MSG, so do the commands' stores, and RESET empties it. -/
theorem stepKeepsTheMemoryForm : Obligations.StepKeepsTheMemoryForm := by
  intro s t hm h
  cases step_effect h with
  | access head form effect => exact effect.wf (decodeAccess_form form).1 hm
  | engine head taken work =>
    rcases taken with rfl | rfl
    · exact work.elim (wf_tick hm) (wf_complete hm)
    · exact work.elim (wf_tick (s := s.pop) hm) (wf_complete (s := s.pop) hm)
  | reset head effect =>
    obtain ⟨u, rfl, _⟩ := resetEvent_eq_next effect
    exact wf_nil

end Sys2Proof.Proofs

/-! # Proofs about completion (42_register_access.md, 70_reset_and_hazards.md): the micro-states of a pending command, its end,
and the control invariant -/

namespace Sys2Proof.Proofs

open Sys2Proof.Machine Sys2Proof.Safety Sys2Proof.Laws

/-! ### The micro-states of a pending command -/

/-- A compression of the command: its last one, or the first of a FINAL whose marker overflows (R57, R59). -/
def isPassOf (last : Bool) : Instr → Prop
  | .compress => last = true
  | .final rem => last = true ∨ 56 ≤ rem.toNat
  | _ => False

/-- The micro-states of a command and what the engine has checked there (R17): the command is not started; FINAL is at PAD over
a written remainder, or at LEN over a written block; or a compression of a written block is under way. -/
inductive MicroState (s : State) : Instr → Seq → Prop
  | idle (i : Instr) : MicroState s i .idle
  | pad {rem : BitVec 6} {tail : List Byte} (written : Memory.load s.mem msgBase rem.toNat = some tail) :
      MicroState s (.final rem) .pad
  | len {rem : BitVec 6} {bs : List Byte} (written : s.block = some bs) : MicroState s (.final rem) .len
  | load {i : Instr} {bs : List Byte} (written : s.block = some bs) (pass : isPassOf s.lastPass i) : MicroState s i .load
  | step {i : Instr} {bs : List Byte} (n : Fin 48) (written : s.block = some bs) (pass : isPassOf s.lastPass i) :
      MicroState s i (.step n)
  | commit {i : Instr} {bs : List Byte} (written : s.block = some bs) (pass : isPassOf s.lastPass i) : MicroState s i .commit

theorem blockWritten_iff (s : State) : blockWritten s = true ↔ ∃ bs, s.block = some bs :=
  Option.isSome_iff_exists

theorem microState_of_sequenced {s : State} {i : Instr} (hd : decodeCommand s.pcmd = .ok i) (h : sequenced s = true) :
    MicroState s i s.seq := by
  rcases decodeCommand_eq_ok hd with rfl | rfl | rfl
  · have hq : s.seq = .idle := by simpa [sequenced, hd] using h
    exact hq ▸ .idle _
  · cases hq : s.seq with
    | idle => exact .idle _
    | pad => simp [sequenced, hd, hq] at h
    | len => simp [sequenced, hd, hq] at h
    | _ => -- LOAD, STEP(t) and COMMIT: each asks for a written block and a compression of the command
      obtain ⟨⟨bs, written⟩, pass⟩ : (∃ bs, s.block = some bs) ∧ s.lastPass = true := by
        simpa [sequenced, hd, hq, blockWritten_iff] using h
      constructor <;> assumption
  · cases hq : s.seq with
    | idle => exact .idle _
    | pad =>
      obtain ⟨tail, written⟩ := Option.isSome_iff_exists.1 (by simpa [sequenced, hd, hq] using h)
      exact .pad written
    | len =>
      obtain ⟨bs, written⟩ := (blockWritten_iff s).1 (by simpa [sequenced, hd, hq] using h)
      exact .len written
    | _ => -- LOAD, STEP(t) and COMMIT: each asks for a written block and a compression of the command
      obtain ⟨⟨bs, written⟩, pass⟩ : (∃ bs, s.block = some bs) ∧ (s.lastPass = true ∨ 56 ≤ (remField s.pcmd).toNat) := by
        simpa [sequenced, hd, hq, blockWritten_iff] using h
      constructor <;> assumption

theorem sequenced_of_pass {s : State} {i : Instr} {bs : List Byte} (hd : decodeCommand s.pcmd = .ok i)
    (written : s.block = some bs) (pass : isPassOf s.lastPass i)
    (hq : s.seq = .load ∨ (∃ n, s.seq = .step n) ∨ s.seq = .commit) : sequenced s = true := by
  have hbw : blockWritten s = true := (blockWritten_iff s).2 ⟨bs, written⟩
  rcases decodeCommand_eq_ok hd with rfl | rfl | rfl
  · exact pass.elim
  · simp only [isPassOf] at pass
    rcases hq with hq | ⟨n, hq⟩ | hq <;> simp [sequenced, hd, hq, hbw, pass]
  · simp only [isPassOf] at pass
    rcases hq with hq | ⟨n, hq⟩ | hq <;> simpa [sequenced, hd, hq, hbw] using pass

theorem sequenced_of_idle {s : State} (hq : s.seq = .idle) : sequenced s = true := by
  unfold sequenced
  split <;> simp [hq]

/-- What the control invariant says of SEQ is that it is one of the pending command's micro-states. -/
theorem sequenced_iff {s : State} {i : Instr} (hd : decodeCommand s.pcmd = .ok i) :
    sequenced s = true ↔ MicroState s i s.seq := by
  refine ⟨microState_of_sequenced hd, fun m => ?_⟩
  generalize hq : s.seq = q at m
  cases m with
  | idle => exact sequenced_of_idle hq
  | pad written => simp [sequenced, hd, hq, written]
  | len written => simp [sequenced, hd, hq, blockWritten, written]
  | load written pass => exact sequenced_of_pass hd written pass (.inl hq)
  | step n written pass => exact sequenced_of_pass hd written pass (.inr (.inl ⟨n, hq⟩))
  | commit written pass => exact sequenced_of_pass hd written pass (.inr (.inr hq))

/-- The control invariant with BUSY = 1: a command that acceptance lets through is pending, at one of its micro-states. -/
theorem coherent_busy_iff {s : State} (hb : s.busy = true) :
    coherent s = true ↔ ∃ i, decodeCommand s.pcmd = .ok i ∧ (needsRunning i = true → s.phase.running = true) ∧
      MicroState s i s.seq := by
  rw [coherent, if_pos hb, Bool.and_eq_true, acceptable]
  cases hd : decodeCommand s.pcmd with
  | error e => simp
  | ok i => cases hr : needsRunning i <;> simp [sequenced_iff hd, hr]

theorem coherent_of_idle {s : State} (hb : s.busy = false) (hq : s.seq = .idle) : coherent s = true := by
  simp [coherent, hb, hq]

theorem seq_of_coherent_idle {s : State} (hc : coherent s = true) (hb : s.busy = false) : s.seq = .idle := by
  simpa [coherent, hb] using hc

/-! ### The end of a pending command -/

theorem exec_command_atRest {i : Instr} {s t : State} (hi : isCommand i = true) (h : exec i s = .next t) : atRest t := by
  cases i with
  | init => obtain rfl := exec_init_eq_next.1 h; exact ⟨release_busy _, release_seq _⟩
  | compress => obtain ⟨bs, -, rfl⟩ := exec_compress_eq_next.1 h; exact ⟨endCompress_busy _, endCompress_seq _⟩
  | final rem => exact exec_final_atRest h
  | _ => cases hi

/-- The result is the command's end. -/
def EndsCommand (o : Result) : Prop := ∃ t, o = .next t ∧ atRest t

theorem endsCommand_endCompress (s : State) : EndsCommand (.next (endCompress s)) :=
  ⟨_, rfl, endCompress_busy s, endCompress_seq s⟩

theorem endsCommand_endFinal (s : State) : EndsCommand (.next (endFinal s)) :=
  ⟨_, rfl, endFinal_busy s, endFinal_seq s⟩

/-- FINAL n over a written remainder ends. -/
theorem endsCommand_exec_final {rem : BitVec 6} {s : State} {tail : List Byte}
    (hl : Memory.load s.mem msgBase rem.toNat = some tail) : EndsCommand (exec (.final rem) s) := by
  obtain ⟨t, ht, -⟩ := finalPadsAndCompresses s rem tail hl
  exact ⟨t, ht, exec_final_atRest ht⟩

/-- From LEN the micro-steps end a FINAL. -/
theorem endsCommand_of_len (k : Nat) {s : State} {rem : BitVec 6} {bs : List Byte} (hb : s.busy = true)
    (hd : decodeCommand s.pcmd = .ok (.final rem)) (hq : s.seq = .len) (written : s.block = some bs) :
    EndsCommand (runTicks (k + 51) s) := by
  rw [runTicks_len k hb hq (writeLength_block written) hd]
  exact endsCommand_endFinal _

/-- COMMIT ends the command, or, being the first of FINAL's two, clears MSG and goes to LEN (R57). -/
theorem tick_commit_outcome {s : State} {i : Instr} (hb : s.busy = true) (hd : decodeCommand s.pcmd = .ok i)
    (hq : s.seq = .commit) (pass : isPassOf s.lastPass i) :
    EndsCommand (tick s) ∨
      ∃ rem, i = .final rem ∧ tick s = .next ((clearMsg (s.commit (s.acc.add s.work))).enter .len) := by
  rcases decodeCommand_eq_ok hd with rfl | rfl | rfl
  · exact pass.elim
  · rw [(tick_commit_last hb hq pass).1 hd]
    exact .inl (endsCommand_endCompress _)
  · cases hp : s.lastPass with
    | true =>
      rw [(tick_commit_last hb hq hp).2 _ hd]
      exact .inl (endsCommand_endFinal _)
    | false => exact .inr ⟨_, rfl, tick_commit_first hb hq hp⟩

/-- From COMMIT the micro-steps end the command, at once or through LEN and FINAL's second compression. -/
theorem endsCommand_of_commit (k : Nat) {s : State} {i : Instr} (hb : s.busy = true) (hd : decodeCommand s.pcmd = .ok i)
    (hq : s.seq = .commit) (pass : isPassOf s.lastPass i) : EndsCommand (runTicks (k + 52) s) := by
  rw [show k + 52 = (k + 51) + 1 by omega, runTicks_succ _ hb]
  rcases tick_commit_outcome hb hd hq pass with ⟨t, ht, hrest⟩ | ⟨rem, rfl, ht⟩
  · rw [ht, andThen_next, runTicks_done _ hrest.1]
    exact ⟨t, rfl, hrest⟩
  · rw [ht, andThen_next]
    refine endsCommand_of_len k (rem := rem) ?_ ?_ (enter_seq _ _) ((block_congr (enter_mem _ _)).trans (clearMsg_block _))
    · simpa using hb
    · simpa using hd

/-- From PAD over a written remainder the micro-steps come to FINAL's meaning. -/
theorem endsCommand_of_pad (k : Nat) {s : State} {rem : BitVec 6} {tail : List Byte} (hb : s.busy = true)
    (hd : decodeCommand s.pcmd = .ok (.final rem)) (hq : s.seq = .pad)
    (hl : Memory.load s.mem msgBase rem.toNat = some tail) : EndsCommand (runTicks (k + 102) s) := by
  have hs : s.enter .pad = s := hq ▸ rfl
  have hexec : exec (.final rem) s = andThen (overflow rem.toNat (padMsg rem.toNat s)) fun t =>
      andThen (compressMsg (writeLength t)) fun u => .next (endFinal u) := by
    change execFinal rem s = _
    rw [execFinal, hl]
  rw [show k + 102 = (k + 101) + 1 by omega, runTicks_succ _ hb, tick_pad hb hq, andThen_next, ← hs,
    runTicks_tickPad hb hd hl, ← hexec]
  exact endsCommand_exec_final hl

/-- From every micro-state of a started command the 104 micro-steps of a completion end it. -/
theorem endsCommand_of_microState {s : State} {i : Instr} (hb : s.busy = true) (hd : decodeCommand s.pcmd = .ok i)
    (m : MicroState s i s.seq) (hstarted : s.seq ≠ .idle) : EndsCommand (runTicks maxTicks s) := by
  generalize hq : s.seq = q at m
  cases m with
  | idle => exact absurd hq hstarted
  | pad written => exact endsCommand_of_pad 2 hb hd hq written
  | len written => exact endsCommand_of_len 53 hb hd hq written
  | load written pass =>
    rw [show maxTicks = (3 + 52) + 49 from rfl, runTicks_load _ hb hq written]
    exact endsCommand_of_commit 3 hb hd rfl pass
  | step n written pass =>
    rw [show maxTicks = (n.val + 4 + 52) + ((47 - n.val) + 1) by simp only [maxTicks]; omega,
      runTicks_steps (47 - n.val) _ (by omega) hb hq written]
    exact endsCommand_of_commit _ hb hd rfl pass
  | commit written pass => exact endsCommand_of_commit 52 hb hd hq pass

theorem complete_of_started {s : State} (hb : s.busy = true) (hq : s.seq ≠ .idle) : complete s = runTicks maxTicks s := by
  simp only [complete, hb, hq, if_true, if_false]

/-- The result is UnwrittenMsg of the pending command, and it names a byte that is not written. -/
def StopsUnwritten (s : State) (o : Result) : Prop :=
  ∃ is j, o = .fault (.unwrittenMsg (.command s.pcmd) is) ∧ j ∈ is ∧ j < 64 ∧ s.valid j = false

theorem stopsUnwritten_of_invalid {s : State} {o : Result} {n j : Nat} (hn : n ≤ 64) (hj : j < n)
    (hv : s.valid j = false) (ho : o = .fault (.unwrittenMsg (.command s.pcmd) (Memory.unwritten s.mem 0 n))) :
    StopsUnwritten s o :=
  ⟨_, j, ho, (mem_unwritten_zero_iff s n j).2 ⟨hj, hv⟩, by omega, hv⟩

/-- A command's meaning ends it, or stops on a byte that is not written, and nothing else (R77). -/
theorem exec_command_outcome {i : Instr} (hi : isCommand i = true) (s : State) :
    EndsCommand (exec i s) ∨ StopsUnwritten s (exec i s) := by
  cases i with
  | init => exact .inl ⟨_, rfl, release_busy _, release_seq _⟩
  | compress =>
    cases hl : s.block with
    | some bs => exact .inl ⟨_, exec_compress_eq_next.2 ⟨bs, hl, rfl⟩, endCompress_busy _, endCompress_seq _⟩
    | none =>
      obtain ⟨j, hj, hv⟩ := (block_eq_none_iff s).1 hl
      exact .inr (stopsUnwritten_of_invalid (Nat.le_refl 64) hj hv (exec_compress_of_unwritten hl))
  | final rem =>
    cases hl : Memory.load s.mem msgBase rem.toNat with
    | some tail => exact .inl (endsCommand_exec_final hl)
    | none =>
      obtain ⟨j, hj, hv⟩ := (load_eq_none_iff s _).1 hl
      exact .inr (stopsUnwritten_of_invalid (Nat.le_of_lt rem.isLt) hj hv (exec_final_of_unwritten hl))
  | _ => cases hi

/-- From every micro-state a completion ends the command, or stops on a byte that is not written, and nothing else (R86). -/
theorem complete_outcome {s : State} (hc : coherent s = true) (hb : s.busy = true) :
    EndsCommand (complete s) ∨ StopsUnwritten s (complete s) := by
  obtain ⟨i, hd, -, m⟩ := (coherent_busy_iff hb).1 hc
  by_cases hq : s.seq = .idle
  · rw [complete_of_not_started hb hq hd]
    exact exec_command_outcome (decodeCommand_isCommand hd) s
  · rw [complete_of_started hb hq]
    exact .inl (endsCommand_of_microState hb hd m hq)

/-- Settles O46: a stop names an unwritten byte, so there is none where every byte is written. -/
theorem everyAcceptedCommandCompletes : Obligations.EveryAcceptedCommandCompletes := by
  intro s hc hb
  rcases complete_outcome hc hb with ends | ⟨is, j, hstop, hmem, hj, hv⟩
  · exact ⟨.inl ends, fun _ => ends⟩
  · refine ⟨.inr ⟨is, hstop, List.ne_nil_of_mem hmem⟩, fun hall => ?_⟩
    simp [hall j hj] at hv

theorem complete_atRest {s t : State} (hc : coherent s = true) (h : complete s = .next t) : atRest t := by
  cases hb : s.busy with
  | false =>
    rw [complete_of_idle hb] at h
    cases h
    exact ⟨hb, seq_of_coherent_idle hc hb⟩
  | true =>
    rcases complete_outcome hc hb with ⟨t', ht', hrest⟩ | ⟨is, j, hstop, -⟩
    · obtain rfl := Host.Outcome.next.inj (ht'.symm.trans h)
      exact hrest
    · rw [hstop] at h
      cases h

/-- Settles O45: with a command pending a completion that answers has ended it; with none it is not enabled. -/
theorem completionEndsTheCommand : Obligations.CompletionEndsTheCommand :=
  ⟨fun _ _ => complete_atRest, fun _ => complete_of_idle⟩

/-- Settles O48: a micro-step that has not ended the command keeps what the engine's own work shows the host. -/
theorem microStepsAreInvisible : Obligations.MicroStepsAreInvisible := by
  intro s t h ht
  obtain ⟨hrun, ⟨hbusy, hphase, hpcmd⟩ | ⟨-, hended⟩⟩ := tick_frame h
  · have hstatus : t.status = s.status := by rw [State.status, hphase, hbusy, State.status]
    have ⟨hfaults, hreads, _, _⟩ := hrun
    exact ⟨hstatus, hpcmd, hrun, observe_of_busy (hbusy.symm.trans ht) ht hreads hfaults hstatus⟩
  · rw [ht] at hended
    cases hended

/-! ### The control invariant -/

theorem coherent_of_atRest {s : State} (h : atRest s) : coherent s = true :=
  coherent_of_idle h.1 h.2

/-- The command is still pending, at one of its micro-states, or it has ended. -/
def PendingAt (i : Instr) (t : State) : Prop := (t.busy = true ∧ MicroState t i t.seq) ∨ atRest t

theorem startCommand_pendingAt {s t : State} {i : Instr} (hb : s.busy = true) (hd : decodeCommand s.pcmd = .ok i)
    (h : startCommand s = .next t) : PendingAt i t := by
  rw [startCommand, hd] at h
  rcases decodeCommand_eq_ok hd with rfl | rfl | rfl
  · exact .inr (exec_command_atRest (i := .init) rfl h)
  · cases hl : s.block with
    | none => rw [block_eq] at hl; simp [hl, raiseUnwritten] at h
    | some bs =>
      rw [block_eq] at hl
      simp only [hl] at h
      cases h
      exact .inl ⟨hb, .load (s := s.beginPass true) hl rfl⟩
  · cases hl : Memory.load s.mem msgBase (remField s.pcmd).toNat with
    | none => simp [hl, raiseUnwritten] at h
    | some tail =>
      simp only [hl] at h
      cases h
      exact .inl ⟨hb, .pad (s := s.enter .pad) hl⟩

theorem pendingRem_eq {s : State} {rem : BitVec 6} (hd : decodeCommand s.pcmd = .ok (.final rem)) :
    pendingRem s = rem.toNat := by
  rcases decodeCommand_eq_ok hd with h | h | h <;> cases h
  rfl

/-- PAD leaves a written block, to be compressed as it is where the marker overflows, and to get the length elsewhere (R59). -/
theorem tickPad_pendingAt {s : State} {rem : BitVec 6} {tail : List Byte} (hb : s.busy = true)
    (hd : decodeCommand s.pcmd = .ok (.final rem)) (hl : Memory.load s.mem msgBase rem.toNat = some tail) :
    PendingAt (.final rem) (tickPad s) := by
  have written := padMsg_block hl rem.isLt
  refine .inl ?_
  rw [tickPad, pendingRem_eq hd]
  split
  · next h56 => exact ⟨hb, .load (s := (padMsg rem.toNat s).beginPass false) written (.inr h56)⟩
  · exact ⟨hb, .len (s := (padMsg rem.toNat s).enter .len) written⟩

/-- Each micro-step leads to a micro-state of the same command, or to its end (R17). -/
theorem tick_pendingAt {s t : State} {i : Instr} (hb : s.busy = true) (hd : decodeCommand s.pcmd = .ok i)
    (m : MicroState s i s.seq) (h : tick s = .next t) : PendingAt i t := by
  generalize hq : s.seq = q at m
  cases m with
  | idle => exact startCommand_pendingAt hb hd (tick_idle hb hq ▸ h)
  | pad written =>
    rw [tick_pad hb hq] at h
    cases h
    exact tickPad_pendingAt hb hd written
  | len written =>
    rw [tick_len hb hq] at h
    cases h
    exact .inl ⟨hb, .load (s := tickLen s) (writeLength_block written) (.inl rfl)⟩
  | load written pass =>
    rw [tick_load hb hq] at h
    cases h
    exact .inl ⟨hb, .step (s := tickLoad s) 0 written pass⟩
  | step n written pass =>
    rw [tick_step hb hq written] at h
    cases h
    refine .inl ⟨hb, ?_⟩
    dsimp only
    split
    · exact .step _ written pass
    · exact .commit written pass
  | commit written pass =>
    rcases tick_commit_outcome hb hd hq pass with ⟨u, hu, hrest⟩ | ⟨rem, rfl, hu⟩
    · obtain rfl := Host.Outcome.next.inj (hu.symm.trans h)
      exact .inr hrest
    · obtain rfl := Host.Outcome.next.inj (hu.symm.trans h)
      refine .inl ⟨by simpa using hb, ?_⟩
      rw [enter_seq]
      exact .len ((block_congr (enter_mem _ _)).trans (clearMsg_block _))

theorem tick_coherent {s t : State} (hc : coherent s = true) (h : tick s = .next t) : coherent t = true := by
  cases hb : s.busy with
  | false =>
    rw [tick_of_idle hb] at h
    cases h
    exact hc
  | true =>
    obtain ⟨i, hd, hi, m⟩ := (coherent_busy_iff hb).1 hc
    rcases tick_pendingAt hb hd m h with ⟨ht, m'⟩ | hrest
    · obtain ⟨-, ⟨-, hphase, hpcmd⟩ | ⟨-, hended⟩⟩ := tick_frame h
      · exact (coherent_busy_iff ht).2 ⟨i, hpcmd ▸ hd, hphase ▸ hi, m'⟩
      · rw [ht] at hended
        cases hended
    · exact coherent_of_atRest hrest

/-- An access form accepts a command that it has checked, with the sequencer IDLE (R65), and writes nothing else that the
invariant looks at but MSG, which it writes only with no command pending. -/
theorem exec_access_coherent {i : Instr} {s t : State} (hi : isCommand i = false) (h : exec i s = .next t)
    (hc : coherent s = true) : coherent t = true := by
  cases exec_access_effect hi h with
  | accept w idle =>
    obtain ⟨-, ⟨i, hd, hrun⟩, -⟩ := exec_stCmd_eq_next.1 h
    refine (coherent_busy_iff (accept_busy s w)).2 ⟨i, hd, hrun, ?_⟩
    rw [accept_seq, seq_of_coherent_idle hc idle]
    exact .idle i
  | reply i v read => exact hc
  | store i j index idle => exact coherent_of_idle idle (seq_of_coherent_idle (s := s) hc idle)

/-- Settles O60: an access form starts a command that it has checked, or none; a micro-step goes from micro-state to micro-state;
a completion and RESET end at rest. -/
theorem stepKeepsTheControlInvariant : Obligations.StepKeepsTheControlInvariant := by
  intro s t hc h
  cases step_effect h with
  | access head form effect =>
    rw [step_of_event head] at h
    obtain ⟨-, i, hd, hexec⟩ := hostAccess_eq_next_iff.1 h
    exact exec_access_coherent (decodeAccess_isAccess hd) hexec hc
  | engine head taken work =>
    rcases taken with rfl | rfl
    · exact work.elim (tick_coherent hc) fun h => coherent_of_atRest (complete_atRest hc h)
    · exact work.elim (tick_coherent (s := s.pop) hc) fun h => coherent_of_atRest (complete_atRest (s := s.pop) hc h)
  | reset head effect =>
    obtain ⟨u, rfl, _⟩ := resetEvent_eq_next effect
    exact coherent_of_idle (assertReset_busy u) (assertReset_seq u)

end Sys2Proof.Proofs

/-! # Proofs about reset, hosts and instances (60_exceptions.md, 70_reset_and_hazards.md) -/

namespace Sys2Proof.Proofs

open Sys2Proof.Machine Sys2Proof.Safety Sys2Proof.Laws

/-! ### RESET -/

/-- A transaction that meets RESET is not performed: nothing but the values read and the free values changes (R82). -/
theorem dropAccess_frame (a : Access) (s : State) :
    (dropAccess a s).faults = s.faults ∧ (dropAccess a s).inputs = s.inputs ∧ (dropAccess a s).host = s.host := by
  rw [dropAccess]
  split <;> exact ⟨rfl, rfl, rfl⟩

/-- RESET answers whatever the engine is doing and whatever transaction of a served host meets it (R81, R82). -/
theorem resetEvent_answers {during : Option (Nat × Access)} {s : State}
    (hs : ∀ h a, during = some (h, a) → serves s h) :
    ∃ u : State, resetEvent during s = .next u.assertReset ∧ u.faults = s.faults ∧ u.inputs = s.inputs := by
  cases during with
  | none => exact ⟨s, rfl, rfl, rfl⟩
  | some access =>
    obtain ⟨h, a⟩ := access
    obtain ⟨hf, hin, -⟩ := dropAccess_frame a { s with host := some h }
    refine ⟨_, ?_, hf, hin⟩
    rw [resetEvent, claim_serves (hs h a rfl)]

/-- Settles O50: the step takes the RESET event, and RESET sets R81's values. -/
theorem resetWinsFromAnyState : Obligations.ResetWinsFromAnyState := by
  intro s during rest hin hs
  obtain ⟨u, hreset, hf, hinputs⟩ := resetEvent_answers (s := s.pop) hs
  refine ⟨u.assertReset, (step_of_event hin).trans hreset, assertReset_phase u, ⟨assertReset_busy u, assertReset_seq u⟩,
    fun _ => rfl, assertReset_status u, hf, ?_⟩
  rw [assertReset_inputs, hinputs, pop_inputs, hin, List.tail_cons]

/-- Settles O52: R81's values at the start of a run. -/
theorem resetStateMeetsTheInvariants : Obligations.ResetStateMeetsTheInvariants :=
  ⟨rfl, rfl, rfl, rfl, fun _ _ => rfl, rfl, reset_memory_wf, coherent_of_idle rfl rfl⟩

/-! ### What can be read after RESET -/

/-- After RESET no byte is VALID, so a load of any size faults. -/
theorem loadMsg_after_reset {a : Access} {j : BitVec 6} (s : State) (hj : alignedIndex a.size.bytes j = true) :
    ∃ reader is, loadMsg a j s.assertReset = .fault (.unwrittenMsg reader is) := by
  have hl : Memory.load s.assertReset.mem (msgBase + j.toNat) a.size.bytes = none := by
    rw [assertReset_mem]
    cases a.size <;> rfl
  exact ⟨_, _, loadMsg_of_unwritten hj (assertReset_busy s) hl⟩

theorem storeMsg_after_reset {a : Access} {j : BitVec 6} (s : State) (hj : alignedIndex a.size.bytes j = true) :
    ∃ t, storeMsg a j s.assertReset = .next t :=
  ⟨_, storeMsg_eq_next.2 ⟨hj, assertReset_busy s, rfl⟩⟩

/-- After RESET a command word other than INIT's is reserved or needs a computation in progress. -/
theorem exec_stCmd_after_reset {w : Word} (s : State) (hw : w.toNat ≠ 1) :
    ∃ f, exec (.stCmd w) s.assertReset = .fault f := by
  by_cases hr : reservedWord w
  · exact ⟨_, exec_stCmd_of_reserved hr (assertReset_busy s)⟩
  · obtain ⟨i, hd, -⟩ := decodeCommand_needsRunning hr
    have hi : needsRunning i = true := by
      rcases decodeCommand_toNat hd with ⟨-, h1⟩ | ⟨rfl, -⟩ | ⟨rfl, -⟩
      · exact absurd h1 hw
      · rfl
      · rfl
    exact ⟨_, exec_stCmd_badPhase (assertReset_busy s) hd hi rfl⟩

/-- Settles O51: PHASE = UNINIT bars the counter, the digest and two of the commands, and VALID = 0 bars MSG. -/
theorem nothingUnspecifiedIsReadAfterReset : Obligations.NothingUnspecifiedIsReadAfterReset := by
  intro s i hi hwf
  cases i with
  | init => cases hi
  | compress => cases hi
  | final rem => cases hi
  | stCmd w =>
    refine ⟨fun hw => ?_, exec_stCmd_after_reset s⟩
    obtain ⟨⟨-, hinit⟩, -⟩ := opcodeMapIsExact w
    exact exec_stCmd_accept (assertReset_busy s) (hinit hw) nofun
  | ldStatus => exact exec_ldStatus_eq_next.2 (congrArg s.assertReset.reply (assertReset_status s).symm)
  | ldCnt half => exact ⟨_, exec_ldCnt_of_uninit half (assertReset_busy s) (assertReset_phase s)⟩
  | ldDigest n => exact ⟨_, exec_ldDigest_badPhase n (assertReset_busy s) nofun⟩
  | stMsgB j d => exact storeMsg_after_reset s hwf
  | stMsgH j d => exact storeMsg_after_reset s hwf
  | stMsgW j d => exact storeMsg_after_reset s hwf
  | ldMsgB j => exact loadMsg_after_reset s hwf
  | ldMsgH j => exact loadMsg_after_reset s hwf
  | ldMsgW j => exact loadMsg_after_reset s hwf

/-! ### The bound host -/

theorem hostAccess_of_other {s : State} {first h : Nat} (a : Access) (hs : s.host = some first) (hne : first ≠ h) :
    hostAccess h a s = .refused (.secondHost first h) := by
  rw [hostAccess, claim_of_other hs hne]

theorem resetEvent_of_other {s : State} {first h : Nat} (a : Access) (hs : s.host = some first) (hne : first ≠ h) :
    resetEvent (some (h, a)) s = .refused (.secondHost first h) := by
  rw [resetEvent, claim_of_other hs hne]

/-- A second host's transaction ends the run's account: the model refuses the run (R80, U16). -/
theorem advance_of_second_host {s : State} {first h : Nat} {a : Access} {rest : List Event} (hs : s.host = some first)
    (hne : first ≠ h) (hin : s.inputs = .access h a :: rest) : advance s = none := by
  have hstep : step s = .refused (.secondHost first h) := (step_of_event hin).trans (hostAccess_of_other a hs hne)
  rw [advance, hstep]

/-- An access that the account goes on from was of a served host. -/
theorem serves_of_advance {s t : State} {h : Nat} {a : Access} {rest : List Event}
    (hin : s.inputs = .access h a :: rest) (ht : advance s = some t) : serves s h := by
  cases hs : s.host with
  | none => exact .inl hs
  | some first =>
    refine .inr (hs.trans (congrArg some ?_))
    by_contra hne
    rw [advance_of_second_host hs hne hin] at ht
    cases ht

/-- An access, performed or faulting, leaves its host bound (R80). -/
theorem advance_access_host {s t : State} {h : Nat} {a : Access} {rest : List Event}
    (hin : s.inputs = .access h a :: rest) (ht : advance s = some t) : t.host = some h := by
  rcases advance_eq_some.1 ht with hn | ⟨f, -, rfl⟩
  · rw [step_of_event hin] at hn
    obtain ⟨-, i, hd, hexec⟩ := hostAccess_eq_next_iff.1 hn
    exact (exec_access_effect (decodeAccess_isAccess hd) hexec).keeps.host
  · rw [afterFault_host]
    rcases serves_of_advance hin ht with hs | hs
    · exact boundHost_of_access hs hin
    · exact boundHost_of_some hs

/-- RESET does not forget a bound host. -/
theorem resetEvent_host {during : Option (Nat × Access)} {s t : State} {h : Nat} (hs : s.host = some h)
    (ht : resetEvent during s = .next t) : t.host = some h := by
  cases during with
  | none => cases ht; exact hs
  | some access =>
    obtain ⟨h', a⟩ := access
    rw [resetEvent, claim_eq_next] at ht
    obtain ⟨hserves, hk⟩ := ht
    obtain rfl := Host.Outcome.next.inj hk
    obtain ⟨-, -, hhost⟩ := dropAccess_frame a { s with host := some h' }
    rw [assertReset_host, hhost, ← hs]
    exact (hserves.resolve_left (by simp [hs])).symm

/-- No event of a run changes a bound host. -/
theorem advance_keeps_host {s t : State} {h : Nat} (hs : s.host = some h) (ht : advance s = some t) : t.host = some h := by
  rcases advance_eq_some.1 ht with hn | ⟨f, -, rfl⟩
  · cases step_effect hn with
    | access head form effect =>
      rw [advance_access_host head ht, ← hs]
      exact ((serves_of_advance head ht).resolve_left (by simp [hs])).symm
    | engine head taken work =>
      obtain ⟨⟨-, -, hhost, -⟩, -⟩ := engine_frame work
      rcases taken with rfl | rfl <;> exact hhost.trans hs
    | reset head effect => exact resetEvent_host (s := s.pop) hs effect
  · rw [afterFault_host, boundHost_of_some hs]

/-- Settles O54: the claim refuses a second host, binds a first, and no event unbinds it. -/
theorem secondHostIsRefused : Obligations.SecondHostIsRefused :=
  ⟨fun _ _ _ a hs hne =>
      ⟨hostAccess_of_other a hs hne, resetEvent_of_other a hs hne, fun _ => advance_of_second_host hs hne⟩,
    fun _ _ _ _ _ => advance_access_host, fun _ _ _ => advance_keeps_host⟩

/-! ### The instances of a system -/

/-- All a step of instance k can do where it answers: nothing where there is no such instance, else its state is its own step's. -/
theorem stepInstance_eq_next {k : Nat} {sys sys' : System} : stepInstance step k sys = .next sys' ↔
    (sys[k]? = none ∧ sys' = sys) ∨
      ∃ e t, sys[k]? = some e ∧ step e.state = .next t ∧ sys' = sys.set k { e with state := t } := by
  unfold stepInstance
  cases sys[k]? with
  | none => simp [eq_comm]
  | some e =>
    dsimp only
    cases hstep : step e.state <;> simp [hstep, eq_comm]

/-- An instance's new state moves no window. -/
theorem map_base_set_state {sys : System} {k : Nat} {e : Engine} (t : State) (hk : sys[k]? = some e) :
    (sys.set k { e with state := t }).map (·.base) = sys.map (·.base) := by
  obtain ⟨hlt, rfl⟩ := List.getElem?_eq_some_iff.1 hk
  have hbase : sys[k].base = (sys.map (·.base))[k]'(by simpa using hlt) := by rw [List.getElem_map]
  rw [List.map_set, hbase, List.set_getElem_self]

/-- Settles O56: the step writes the list at index k alone, and reads it there alone. -/
theorem instancesAreIndependent : Obligations.InstancesAreIndependent := by
  intro k sys sys' h
  rcases stepInstance_eq_next.1 h with ⟨hk, rfl⟩ | ⟨e, t, hk, ht, rfl⟩
  · refine ⟨rfl, fun _ _ => rfl, fun e e' he _ => by simp [hk] at he, fun other ho => ?_⟩
    exact ⟨other, stepInstance_eq_next.2 (.inl ⟨ho.trans hk, rfl⟩), ho⟩
  · have hlt : k < sys.length := (List.getElem?_eq_some_iff.1 hk).1
    refine ⟨map_base_set_state t hk, fun j hj => List.getElem?_set_ne (Ne.symm hj), fun d e' hd he' => ?_, fun other ho => ?_⟩
    · obtain rfl := Option.some.inj (hk.symm.trans hd)
      rw [List.getElem?_set_self hlt] at he'
      obtain rfl := Option.some.inj he'
      exact ht
    · refine ⟨_, stepInstance_eq_next.2 (.inr ⟨e, t, ho.trans hk, ht, rfl⟩), ?_⟩
      rw [List.getElem?_set_self hlt, List.getElem?_set_self (List.getElem?_eq_some_iff.1 (ho.trans hk)).1]

end Sys2Proof.Proofs
